-- ==== Sys2Proof/Word.lean ====
section
/-! DEFINITION. The machine's words: 00_scope.md R5 (a word, a register, an address and a cell are 16 bits),
R7 (an unsigned value in 0..65535, addition modulo 65536 is BitVec's own `+`). -/

namespace Sys2Proof

/-- A 16-bit word: a general register, the PC, a memory cell, an address (R5, R7). -/
abbrev Word := BitVec 16

/-- A character code, 0..255 (R48, R49). -/
abbrev Byte := BitVec 8

/-- A register index: any 3-bit register field names one of R0..R7 (10_state.md R20). -/
abbrev RegIdx := Fin 8

end Sys2Proof
end

