-- ==== Sys2Proof/Syntax.lean ====
section
/-! DEFINITION. The instructions: one constructor per row of spec/opcode_table.json (30_encoding.md R82), each with the
operand fields the decoder reads (R71). Bits that R84 calls ignored are not part of the instruction. -/

namespace Sys2Proof

/-- The 25 instruction forms of the opcode map (30_encoding.md R82), in the table's order. -/
inductive Instr where
  /-- BR (R111): mask bits n, z, p and a PC-relative offset. -/
  | br (n z p : Bool) (off9 : BitVec 9)
  /-- ADD, register form (R101). -/
  | addReg (dr sr1 sr2 : RegIdx)
  /-- ADD, immediate form (R102). -/
  | addImm (dr sr1 : RegIdx) (imm5 : BitVec 5)
  /-- LD (R121). -/
  | ld (dr : RegIdx) (off9 : BitVec 9)
  /-- ST (R125). -/
  | st (sr : RegIdx) (off9 : BitVec 9)
  /-- JSR (R113). -/
  | jsr (off11 : BitVec 11)
  /-- JSRR (R114). -/
  | jsrr (baseR : RegIdx)
  /-- AND, register form (R103). -/
  | andReg (dr sr1 sr2 : RegIdx)
  /-- AND, immediate form (R104). -/
  | andImm (dr sr1 : RegIdx) (imm5 : BitVec 5)
  /-- LDR (R123). -/
  | ldr (dr baseR : RegIdx) (off6 : BitVec 6)
  /-- STR (R127). -/
  | str (sr baseR : RegIdx) (off6 : BitVec 6)
  /-- RTI (R161): a reserved opcode, no operand. -/
  | rti
  /-- NOT (R105). -/
  | not (dr sr : RegIdx)
  /-- LDI (R122). -/
  | ldi (dr : RegIdx) (off9 : BitVec 9)
  /-- STI (R126). -/
  | sti (sr : RegIdx) (off9 : BitVec 9)
  /-- JMP (R112). -/
  | jmp (baseR : RegIdx)
  /-- RES (R162): a reserved opcode, no operand. -/
  | res
  /-- LEA (R124). -/
  | lea (dr : RegIdx) (off9 : BitVec 9)
  /-- TRAP 0x20, GETC (R142). -/
  | trapGetc
  /-- TRAP 0x21, OUT (R143). -/
  | trapOut
  /-- TRAP 0x22, PUTS (R144). -/
  | trapPuts
  /-- TRAP 0x23, IN (R145). -/
  | trapIn
  /-- TRAP 0x24, PUTSP (R146). -/
  | trapPutsp
  /-- TRAP 0x25, HALT (R147). -/
  | trapHalt
  /-- TRAP, the fallback row: a vector outside 0x20..0x25 (R150). -/
  | trap (vect8 : BitVec 8)
deriving DecidableEq, Repr

end Sys2Proof
end

