-- ==== Sys2Proof/WellFormed.lean ====
section
/-! DEFINITION. Which terms of Instr stand for a row of the opcode table. The types of the operand fields already say
their widths (30_encoding.md R71); what is left is the fallback row of TRAP (R82: "any other value: undefined vector"). -/

namespace Sys2Proof

/-- The vectors that have a row of their own, 0x20..0x25 (43_trap.md R141). -/
def definedVector (v : BitVec 8) : Bool :=
  0x20#8 ≤ v && v ≤ 0x25#8

/-- The fallback TRAP row never holds a vector that has a row of its own (R82, R150). -/
def Instr.wellFormed : Instr → Bool
  | .trap v => !definedVector v
  | .br _ _ _ _ | .addReg _ _ _ | .addImm _ _ _ | .ld _ _ | .st _ _ | .jsr _ | .jsrr _ | .andReg _ _ _
  | .andImm _ _ _ | .ldr _ _ _ | .str _ _ _ | .rti | .not _ _ | .ldi _ _ | .sti _ _ | .jmp _ | .res | .lea _ _
  | .trapGetc | .trapOut | .trapPuts | .trapIn | .trapPutsp | .trapHalt => true

end Sys2Proof
end

