-- ==== Sys2Proof/Decode.lean ====
section
/-! DEFINITION. The decoder, total on 16-bit words (30_encoding.md R82, R86), and after it the encoder and the opcode
map of spec/opcode_table.json. Every field is pulled out here, once (R71 to R81). Opcode numbers and field positions
are the spec's decisions D1 to D3 (notes/assumptions/1.md). -/

namespace Sys2Proof

/-- The opcode, `ir[15:12]` (R70). -/
def opcodeOf (w : Word) : BitVec 4 := w.extractLsb' 12 4

/-- The 3-bit register field whose lowest bit is `lo` (R71). -/
def regField (w : Word) (lo : Nat) : RegIdx := (w.extractLsb' lo 3).toFin

/-- The field of `n` bits that starts at bit 0: imm5, off6, vect8, off9, off11 (R71). -/
def lowField (n : Nat) (w : Word) : BitVec n := w.extractLsb' 0 n

/-- TRAP's further selection by `vect8` (R82, R141). -/
def decodeTrap (v : BitVec 8) : Instr :=
  match v with
  | 0x20#8 => .trapGetc
  | 0x21#8 => .trapOut
  | 0x22#8 => .trapPuts
  | 0x23#8 => .trapIn
  | 0x24#8 => .trapPutsp
  | 0x25#8 => .trapHalt
  | v => .trap v

/-- The decoder: every 16-bit word is exactly one instruction (R82, R86); ignored bits are not looked at (R84). -/
def decode (w : Word) : Instr :=
  match opcodeOf w with
  | 0x0#4 => .br (w.getLsbD 11) (w.getLsbD 10) (w.getLsbD 9) (lowField 9 w)
  | 0x1#4 => if w.getLsbD 5 then .addImm (regField w 9) (regField w 6) (lowField 5 w)
         else .addReg (regField w 9) (regField w 6) (regField w 0)
  | 0x2#4 => .ld (regField w 9) (lowField 9 w)
  | 0x3#4 => .st (regField w 9) (lowField 9 w)
  | 0x4#4 => if w.getLsbD 11 then .jsr (lowField 11 w) else .jsrr (regField w 6)
  | 0x5#4 => if w.getLsbD 5 then .andImm (regField w 9) (regField w 6) (lowField 5 w)
         else .andReg (regField w 9) (regField w 6) (regField w 0)
  | 0x6#4 => .ldr (regField w 9) (regField w 6) (lowField 6 w)
  | 0x7#4 => .str (regField w 9) (regField w 6) (lowField 6 w)
  | 0x8#4 => .rti
  | 0x9#4 => .not (regField w 9) (regField w 6)
  | 0xA#4 => .ldi (regField w 9) (lowField 9 w)
  | 0xB#4 => .sti (regField w 9) (lowField 9 w)
  | 0xC#4 => .jmp (regField w 6)
  | 0xD#4 => .res
  | 0xE#4 => .lea (regField w 9) (lowField 9 w)
  | _ => decodeTrap (lowField 8 w)  -- 0xF#4, the one value left

/-- The word whose bits 0..15 are those of `w` below bit `nbits`; bits from `nbits` up are 0. -/
def tableWord (nbits w : Nat) : Word := BitVec.ofNat 16 (w % 2 ^ nbits)

/-- The host's view of the decoder: the instruction read from a table row's bits. Every instruction is one 16-bit word
(R70), so a longer one does not exist and has no reading. -/
def decodeTableWord (nbits w : Nat) : Option Instr :=
  if nbits ≤ 16 then some (decode (tableWord nbits w)) else none

/-- A register index as its 3-bit field. -/
def regBits (r : RegIdx) : BitVec 3 := BitVec.ofFin r

/-- A field of `n` bits at bit `lo` of a word that is 0 elsewhere. -/
def fieldAt {n : Nat} (f : BitVec n) (lo : Nat) : Word := f.setWidth 16 <<< lo

/-- The canonical word of an instruction, field by field from R72 to R81. Ignored bits are 0, but for NOT, where an
assembler emits ones (R74). -/
def encode : Instr → Word
  | .br n z p off9 => fieldAt 0x0#4 12 ||| fieldAt (BitVec.ofBool n) 11 ||| fieldAt (BitVec.ofBool z) 10
      ||| fieldAt (BitVec.ofBool p) 9 ||| fieldAt off9 0
  | .addReg dr sr1 sr2 => fieldAt 0x1#4 12 ||| fieldAt (regBits dr) 9 ||| fieldAt (regBits sr1) 6 ||| fieldAt 0#1 5
      ||| fieldAt (regBits sr2) 0
  | .addImm dr sr1 imm5 => fieldAt 0x1#4 12 ||| fieldAt (regBits dr) 9 ||| fieldAt (regBits sr1) 6 ||| fieldAt 1#1 5
      ||| fieldAt imm5 0
  | .ld dr off9 => fieldAt 0x2#4 12 ||| fieldAt (regBits dr) 9 ||| fieldAt off9 0
  | .st sr off9 => fieldAt 0x3#4 12 ||| fieldAt (regBits sr) 9 ||| fieldAt off9 0
  | .jsr off11 => fieldAt 0x4#4 12 ||| fieldAt 1#1 11 ||| fieldAt off11 0
  | .jsrr baseR => fieldAt 0x4#4 12 ||| fieldAt 0#1 11 ||| fieldAt (regBits baseR) 6
  | .andReg dr sr1 sr2 => fieldAt 0x5#4 12 ||| fieldAt (regBits dr) 9 ||| fieldAt (regBits sr1) 6 ||| fieldAt 0#1 5
      ||| fieldAt (regBits sr2) 0
  | .andImm dr sr1 imm5 => fieldAt 0x5#4 12 ||| fieldAt (regBits dr) 9 ||| fieldAt (regBits sr1) 6 ||| fieldAt 1#1 5
      ||| fieldAt imm5 0
  | .ldr dr baseR off6 => fieldAt 0x6#4 12 ||| fieldAt (regBits dr) 9 ||| fieldAt (regBits baseR) 6 ||| fieldAt off6 0
  | .str sr baseR off6 => fieldAt 0x7#4 12 ||| fieldAt (regBits sr) 9 ||| fieldAt (regBits baseR) 6 ||| fieldAt off6 0
  | .rti => fieldAt 0x8#4 12
  | .not dr sr => fieldAt 0x9#4 12 ||| fieldAt (regBits dr) 9 ||| fieldAt (regBits sr) 6 ||| fieldAt 0x3F#6 0
  | .ldi dr off9 => fieldAt 0xA#4 12 ||| fieldAt (regBits dr) 9 ||| fieldAt off9 0
  | .sti sr off9 => fieldAt 0xB#4 12 ||| fieldAt (regBits sr) 9 ||| fieldAt off9 0
  | .jmp baseR => fieldAt 0xC#4 12 ||| fieldAt (regBits baseR) 6
  | .res => fieldAt 0xD#4 12
  | .lea dr off9 => fieldAt 0xE#4 12 ||| fieldAt (regBits dr) 9 ||| fieldAt off9 0
  | .trapGetc => fieldAt 0xF#4 12 ||| fieldAt 0x20#8 0
  | .trapOut => fieldAt 0xF#4 12 ||| fieldAt 0x21#8 0
  | .trapPuts => fieldAt 0xF#4 12 ||| fieldAt 0x22#8 0
  | .trapIn => fieldAt 0xF#4 12 ||| fieldAt 0x23#8 0
  | .trapPutsp => fieldAt 0xF#4 12 ||| fieldAt 0x24#8 0
  | .trapHalt => fieldAt 0xF#4 12 ||| fieldAt 0x25#8 0
  | .trap vect8 => fieldAt 0xF#4 12 ||| fieldAt vect8 0

/-- A row of spec/opcode_table.json: the word `w` matches it when `w &&& mask = pattern`. -/
structure OpcodeRow where
  mnemonic : String
  pattern : Word
  mask : Word
deriving DecidableEq, Repr

/-- Does the word match the row? -/
def OpcodeRow.matches (r : OpcodeRow) (w : Word) : Bool := w &&& r.mask == r.pattern

/-- The row of spec/opcode_table.json that each constructor stands for ("match" and "mask" as the table has them). -/
def Instr.row : Instr → OpcodeRow
  | .br _ _ _ _ => ⟨"BR", 0x0000#16, 0xF000#16⟩
  | .addReg _ _ _ => ⟨"ADD", 0x1000#16, 0xF020#16⟩
  | .addImm _ _ _ => ⟨"ADD", 0x1020#16, 0xF020#16⟩
  | .ld _ _ => ⟨"LD", 0x2000#16, 0xF000#16⟩
  | .st _ _ => ⟨"ST", 0x3000#16, 0xF000#16⟩
  | .jsr _ => ⟨"JSR", 0x4800#16, 0xF800#16⟩
  | .jsrr _ => ⟨"JSRR", 0x4000#16, 0xF800#16⟩
  | .andReg _ _ _ => ⟨"AND", 0x5000#16, 0xF020#16⟩
  | .andImm _ _ _ => ⟨"AND", 0x5020#16, 0xF020#16⟩
  | .ldr _ _ _ => ⟨"LDR", 0x6000#16, 0xF000#16⟩
  | .str _ _ _ => ⟨"STR", 0x7000#16, 0xF000#16⟩
  | .rti => ⟨"RTI", 0x8000#16, 0xF000#16⟩
  | .not _ _ => ⟨"NOT", 0x9000#16, 0xF000#16⟩
  | .ldi _ _ => ⟨"LDI", 0xA000#16, 0xF000#16⟩
  | .sti _ _ => ⟨"STI", 0xB000#16, 0xF000#16⟩
  | .jmp _ => ⟨"JMP", 0xC000#16, 0xF000#16⟩
  | .res => ⟨"RES", 0xD000#16, 0xF000#16⟩
  | .lea _ _ => ⟨"LEA", 0xE000#16, 0xF000#16⟩
  | .trapGetc => ⟨"TRAP_GETC", 0xF020#16, 0xF0FF#16⟩
  | .trapOut => ⟨"TRAP_OUT", 0xF021#16, 0xF0FF#16⟩
  | .trapPuts => ⟨"TRAP_PUTS", 0xF022#16, 0xF0FF#16⟩
  | .trapIn => ⟨"TRAP_IN", 0xF023#16, 0xF0FF#16⟩
  | .trapPutsp => ⟨"TRAP_PUTSP", 0xF024#16, 0xF0FF#16⟩
  | .trapHalt => ⟨"TRAP_HALT", 0xF025#16, 0xF0FF#16⟩
  | .trap _ => ⟨"TRAP", 0xF000#16, 0xF000#16⟩

/-- One instruction of each row, in the table's order. -/
def rowSamples : List Instr :=
  [.br false false false 0, .addReg 0 0 0, .addImm 0 0 0, .ld 0 0, .st 0 0, .jsr 0, .jsrr 0, .andReg 0 0 0,
   .andImm 0 0 0, .ldr 0 0 0, .str 0 0 0, .rti, .not 0 0]
  ++ [.ldi 0 0, .sti 0 0, .jmp 0, .res, .lea 0 0, .trapGetc, .trapOut, .trapPuts, .trapIn, .trapPutsp, .trapHalt,
   .trap 0]

/-- The opcode map: the 25 rows of spec/opcode_table.json in its order, the TRAP fallback row last (R82). -/
def opcodeTable : List OpcodeRow := rowSamples.map Instr.row

/-- The bits of a word that its decoding ignores (R84). -/
def ignoredBits (w : Word) : Word :=
  match opcodeOf w with
  | 0x1#4 | 0x5#4 => if w.getLsbD 5 then 0x0000 else 0x0018
  | 0x4#4 => if w.getLsbD 11 then 0x0000 else 0x063F
  | 0x8#4 | 0xD#4 => 0x0FFF
  | 0x9#4 => 0x003F
  | 0xC#4 => 0x0E3F
  | 0xF#4 => 0x0F00
  | _ => 0x0000

end Sys2Proof
end

