-- ==== Sys2Proof/Machine/Bits.lean ====
section
/-! DEFINITION. Sign and zero extension (00_scope.md R8, R9) and the two bytes of a word (20_memory.md R42). -/

namespace Sys2Proof.Machine

/-- A signed field as a 16-bit word: its own top bit is copied into every higher bit (R8, R83). -/
def sextField {n : Nat} (f : BitVec n) : Word := f.signExtend 16

/-- `sext_N(v)`: the low N bits of v, sign-extended (R8). -/
def sext (n : Nat) (v : Word) : Word := sextField (v.setWidth n)

/-- `zext_16(b)`: the word equal to the byte b (R9). -/
def zext16 (b : Byte) : Word := b.setWidth 16

/-- `w[7:0]`, the low byte of a word (R42). -/
def lowByte (w : Word) : Byte := w.extractLsb' 0 8

/-- `w[15:8]`, the high byte of a word (R42). -/
def highByte (w : Word) : Byte := w.extractLsb' 8 8

end Sys2Proof.Machine
end

