-- ==== Sys2Proof/Config.lean ====
section
/-! DEFINITION. The named parameters of the hardware (00_scope.md R5, 92_eei_decisions.md): what one machine fixes. The
two texts the spec leaves open have no body here, so nothing can be proved about what they are. -/

namespace Sys2Proof

/-- What a TRAP with a vector outside 0x20..0x25 does: the parameter UNDEFINED_TRAP (R150, decision D5). -/
inductive UndefinedTrap where
  | noop
  | fatal
deriving DecidableEq, Repr

/-- UNDEFINED_TRAP: "This spec chooses ignore and continue" (R150, D5; notes/assumptions/3.md). -/
def Config.undefinedTrap : UndefinedTrap := .noop

/-- TRAP_SCAN_INTERCEPTED: whether the reads of PUTS and PUTSP poll the keyboard at KBSR (R148, D9;
notes/assumptions/7.md). -/
def Config.trapScanIntercepted : Bool := false

/-- ENTRY_PC, the PC at reset (R22, D25; notes/assumptions/22.md). -/
def Config.entryPc : Word := 0x3000#16

/-- KBSR, the address of the keyboard status register (R5, R28). -/
def Config.kbsr : Word := 0xFE00#16

/-- KBDR, the address of the keyboard data register (R5, R29). -/
def Config.kbdr : Word := 0xFE02#16

/-- HALT_NOTICE, the bytes HALT writes: open, a fixed finite list (R147, D19; notes/assumptions/17.md). No body. -/
opaque Config.haltNotice : List Byte

/-- IN_PROMPT, the bytes IN writes before it reads: open, a fixed finite list (R145, D19; notes/assumptions/17.md).
No body. -/
opaque Config.inPrompt : List Byte

end Sys2Proof
end

