-- ==== Sys2Proof/Machine/State.lean ====
section
/-! DEFINITION. The state of the machine as plain data (10_state.md R20 to R33), the reasons a step can stop, and the
state after reset (70_reset_and_hazards.md R190 to R196). -/

namespace Sys2Proof.Machine

/-- The condition flag COND: "exactly one of POSITIVE, ZERO, NEGATIVE at any time" (R24). -/
inductive Cond where
  | positive
  | zero
  | negative
deriving DecidableEq, Repr

/-- The run state (R27). All but `running` are terminal. -/
inductive RunState where
  | running
  | halted
  | aborted
  | stopped
deriving DecidableEq, Repr

/-- Which of the two string scans is meant (R144, R146). -/
inductive ScanKind where
  | puts
  | putsp
deriving DecidableEq, Repr

/-- Where inside an instruction the machine is held. The spec gives the hold (R149) and the scan that never ends
(R144, R146); that it is a field of State is the model's (notes/assumptions/23.md, notes/assumptions/24.md). -/
inductive Hold where
  /-- In GETC, waiting for a character (R142, R149). -/
  | getc
  /-- In IN, waiting for a character after the prompt (R145, R149). -/
  | inChar
  /-- In a PUTS or PUTSP scan that has gone round memory without a zero word; `a` is its private pointer. -/
  | scan (kind : ScanKind) (a : Word)
deriving DecidableEq, Repr

/-- What the host may do during a run (60_exceptions.md R181): append one byte to the input source (R31), or set the
stop request (R33). -/
inductive HostAction where
  | supply (b : Byte)
  | requestStop
deriving DecidableEq, Repr

/-- Memory, 65536 cells of one word (R30), as (address, word) pairs in one canonical form: addresses strictly rising
and no entry equal to what an unlisted address reads as (`Memory.wf` in Machine/Ops.lean; notes/assumptions/25.md). -/
abbrev Memory := List (Nat × Word)

structure State where
  /-- R0..R7 (R20, R21). -/
  regs : Vector Word 8
  /-- The program counter, a word address (R22). -/
  pc : Word
  /-- The condition flag (R24). -/
  cond : Cond
  /-- The run state (R27). -/
  run : RunState
  /-- The memory cells, KBSR at 0xFE00 and KBDR at 0xFE02 among them (R28, R29, R30). -/
  mem : Memory
  /-- The input source: characters typed and not yet taken, the head first (R31). -/
  input : List Byte
  /-- The output sink: the bytes written so far, in order (R32). -/
  output : List Byte
  /-- The stop request, set by the host and never cleared by the core (R33). -/
  stopReq : Bool
  /-- The instruction the machine is held inside, if any (R149; the model's own field, notes/assumptions/23.md). -/
  hold : Option Hold
  /-- What the host does before each coming step, the next step first; past the end it does nothing (R48, R181; the
  model's own field, notes/assumptions/15.md). -/
  hostPlan : List (List HostAction)
deriving DecidableEq, Repr

/-- Why a step has no next state. -/
inductive Fault where
  /-- Raised by `step` alone, in a terminal run state: "in any other run state it has no step" (R23, R27). Safe: the
  machine takes no step there either (notes/assumptions/13.md). No instruction raises it. -/
  | noStep (run : RunState)
deriving DecidableEq, Repr

/-- Why an instruction has no meaning. -/
inductive Refusal where
  /-- Raised by an arm of `exec` whose instruction has no meaning yet. Safe. No arm of this model raises it. -/
  | notModelled (mnemonic : String)
deriving DecidableEq, Repr

/-- The state after reset and before the host's load, for the values the spec leaves open: RESET_GPR, RESET_COND and
what the host has put into the input source (R190 to R196, D6, D7, D17). -/
def State.resetWith (gpr : Vector Word 8) (cond : Cond) (input : List Byte) : State where
  regs := gpr
  pc := Config.entryPc
  cond := cond
  run := .running
  mem := []
  input := input
  output := []
  stopReq := false
  hold := none
  hostPlan := []

/-- The state after reset at the values the log names for what the spec leaves open: registers zero, flag Z, input
source empty (DESIGN CHOICE: notes/assumptions/4.md, 5.md and 28.md). -/
def State.reset : State := State.resetWith (Vector.replicate 8 0) .zero []

end Sys2Proof.Machine
end

