-- ==== Sys2Proof/Machine/Ops.lean ====
section
/-! DEFINITION. The named operations over registers, memory, the keyboard, the output sink and the run state: the
pseudocode primitives of 00_scope.md R10, and the one synchronous exception (60_exceptions.md R170). -/

namespace Sys2Proof.Machine

/-! ### Registers and the other fields -/

/-- `x[i]`: read a general register (R10, R20). -/
def State.reg (s : State) (i : RegIdx) : Word := s.regs[i.val]

/-- `x[i] <- v`: write a general register; no register is hardwired (R10, R20). -/
def State.setReg (s : State) (i : RegIdx) (v : Word) : State := { s with regs := s.regs.set i.val v }

/-- `pc <- t` (R10, R22). -/
def State.setPc (s : State) (t : Word) : State := { s with pc := t }

/-- Write the condition flag. -/
def State.setCond (s : State) (c : Cond) : State := { s with cond := c }

/-- Write the run state. -/
def State.setRun (s : State) (r : RunState) : State := { s with run := r }

/-- Replace the memory. -/
def State.setMem (s : State) (m : Memory) : State := { s with mem := m }

/-- Replace the input source. -/
def State.setInput (s : State) (q : List Byte) : State := { s with input := q }

/-- Enter or leave a hold. -/
def State.setHold (s : State) (h : Option Hold) : State := { s with hold := h }

/-! ### Memory cells -/

/-- What an unlisted address reads as: "every one of the 65536 cells is 0x0000" at reset (R195). -/
def Memory.unlisted : Word := 0x0000#16

/-- The word a list of cells holds at address `a`. -/
def Memory.lookup : List (Nat × Word) → Nat → Word
  | [], _ => Memory.unlisted
  | (k, v) :: rest, a => if k = a then v else Memory.lookup rest a

/-- Put a cell into the list, in rising order of address. -/
def Memory.insert : List (Nat × Word) → Nat → Word → List (Nat × Word)
  | [], a, v => [(a, v)]
  | (k, w) :: rest, a, v =>
    if a < k then (a, v) :: (k, w) :: rest
    else if a = k then (a, v) :: rest
    else (k, w) :: Memory.insert rest a v

/-- `mem[a]`, the stored cell with no interception (R30). -/
def Memory.read (m : Memory) (a : Word) : Word := Memory.lookup m a.toNat

/-- `mem[a] <- v` (R30). Writing what an unlisted address reads as removes the entry. -/
def Memory.write (m : Memory) (a v : Word) : Memory :=
  if v = Memory.unlisted then List.filter (fun c => c.1 != a.toNat) m else Memory.insert m a.toNat v

/-- The canonical form: addresses are in 0..65535 and strictly rising, and no entry holds what an unlisted address
reads as. -/
def Memory.wf : List (Nat × Word) → Bool
  | [] => true
  | (k, v) :: rest =>
    decide (k < 65536) && v != Memory.unlisted && rest.all (fun c => decide (k < c.1)) && Memory.wf rest

/-- `mem[a]` of a state. -/
def State.cell (s : State) (a : Word) : Word := Memory.read s.mem a

/-- `mem[a] <- v` on a state. -/
def State.setCell (s : State) (a v : Word) : State := s.setMem (Memory.write s.mem a v)

/-! ### The device bridge and the two memory primitives -/

/-- `KeyAvailable()`: the input source is not empty (R48). -/
def keyAvailable (s : State) : Bool := !s.input.isEmpty

/-- `ReadChar()`: the byte at the head of the input source and the state without it; none when the source is empty,
where the caller waits (R48, R149). -/
def readChar (s : State) : Option (Byte × State) :=
  match s.input with
  | [] => none
  | c :: rest => some (c, s.setInput rest)

/-- The KBSR interceptor: a pending character sets KBSR to 0x8000 and moves into KBDR; with none, KBSR is cleared and
KBDR is left alone (R45, R28, R29). -/
def pollKeyboard (s : State) : State :=
  match readChar s with
  | some (c, t) => (t.setCell Config.kbsr 0x8000#16).setCell Config.kbdr (zext16 c)
  | none => s.setCell Config.kbsr 0x0000#16

/-- `MemRead(a)`: the intercepted read of one word, with the state after it (R45). -/
def memRead (a : Word) (s : State) : Word × State :=
  let t := if a = Config.kbsr then pollKeyboard s else s
  (t.cell a, t)

/-- `MemWrite(a, v)`: the store of one word, never intercepted (R47). -/
def memWrite (a v : Word) (s : State) : State := s.setCell a v

/-- `ScanRead(a)`: the word read of the PUTS and PUTSP scans, under a value of TRAP_SCAN_INTERCEPTED (R148). -/
def scanRead (intercepted : Bool) (a : Word) (s : State) : Word × State :=
  if intercepted then memRead a s else (s.cell a, s)

/-- `PutChar(b)` for each byte in order: append to the output sink (R49, R32). -/
def putChars (bs : List Byte) (s : State) : State := { s with output := s.output ++ bs }

/-! ### The exception and the stop -/

/-- `raise IllegalOpcode(op)`: "run <- ABORTED, and nothing else" (R170). The hardware records neither the opcode nor
an address (D22; notes/assumptions/20.md), and there is no return from it: no handler, no saved register, no
instruction that resumes (R176, R177). -/
def raiseIllegalOpcode (s : State) : State := s.setRun .aborted

/-- The stop takes effect: `run <- STOPPED`, and nothing else (R173). -/
def stopRun (s : State) : State := s.setRun .stopped

/-! ### The fetch -/

/-- The fetch: an intercepted read at the PC, then the PC advances by one, modulo 65536 (R23, R54). -/
def fetch (s : State) : Word × State :=
  let r := memRead s.pc s
  (r.1, r.2.setPc (r.2.pc + 1))

/-! ### The host's part -/

/-- One action of the host: a byte goes to the tail of the input source (R31), or the stop request is set (R33). -/
def hostAct (s : State) : HostAction → State
  | .supply b => s.setInput (s.input ++ [b])
  | .requestStop => { s with stopReq := true }

/-- What the host does before this step: the first entry of its plan, in order; the rest is left for later steps
(R181; notes/assumptions/15.md). -/
def hostTurn (s : State) : State :=
  match s.hostPlan with
  | [] => s
  | acts :: rest => acts.foldl hostAct { s with hostPlan := rest }

end Sys2Proof.Machine
end

