-- ==== Sys2Proof/Machine/Flags.lean ====
section
/-! DEFINITION. The condition flag: how it is set (10_state.md R25), its code, and the test BR makes (R24, R111). -/

namespace Sys2Proof.Machine

/-- The flag for a 16-bit value: zero, else negative when bit 15 is set, else positive (R25). -/
def condOf (v : Word) : Cond :=
  if v = 0 then .zero else if v.getLsbD 15 then .negative else .positive

/-- `setcc(i)`: the flag from the register's value after the instruction's write (R25). -/
def setcc (i : RegIdx) (s : State) : State := s.setCond (condOf (s.reg i))

/-- `x[DR] <- v ; setcc(DR)`: how the seven flag-writing instructions end (R26). -/
def writeResult (dr : RegIdx) (v : Word) (s : State) : State := setcc dr (s.setReg dr v)

/-- The flag's 3-bit code: P = 001, Z = 010, N = 100 (R24, D3; notes/assumptions/1.md). -/
def condCode : Cond → BitVec 3
  | .positive => 0b001
  | .zero => 0b010
  | .negative => 0b100

/-- BR's mask as the 3-bit number n z p, which is `ir[11:9]` (R75). -/
def maskBits (n z p : Bool) : BitVec 3 := BitVec.ofBool n ++ BitVec.ofBool z ++ BitVec.ofBool p

/-- "(condition mask & current flag) ≠ 0": is the branch taken? (R24, R111). -/
def branchTaken (n z p : Bool) (c : Cond) : Bool := maskBits n z p &&& condCode c != 0

end Sys2Proof.Machine
end

