-- ==== Sys2Proof/Machine/Operands.lean ====
section
/-! DEFINITION. The operand forms: the register or immediate second operand of ADD and AND (40_operate.md), and the
three address computations (42_load_store.md R120). Each address is reduced modulo 65536 (R40, R100). -/

namespace Sys2Proof.Machine

/-- The immediate operand: `sext_5(imm5)` (R83, R102, R104). -/
def immOperand (imm5 : BitVec 5) : Word := sextField imm5

/-- `pc +16 sext_9(off9)`: the PC-relative address of BR, LD, LDI, LEA, ST, STI; `pc` is already advanced (R83). -/
def pcRel9 (off9 : BitVec 9) (s : State) : Word := s.pc + sextField off9

/-- `pc +16 sext_11(off11)`: the target of JSR (R83, R113). -/
def pcRel11 (off11 : BitVec 11) (s : State) : Word := s.pc + sextField off11

/-- `x[BaseR] +16 sext_6(off6)`: the base-plus-offset address of LDR and STR (R83, R123). -/
def baseOff6 (baseR : RegIdx) (off6 : BitVec 6) (s : State) : Word := s.reg baseR + sextField off6

end Sys2Proof.Machine
end

