-- ==== Sys2Proof/Machine/Control.lean ====
section
/-! DEFINITION. Control transfer: BR, JMP, JSR, JSRR (41_control.md R110 to R114). The PC of the state these are given
is already the address of the next instruction (R23). -/

namespace Sys2Proof.Machine

/-- BR (R111). -/
def execBr (n z p : Bool) (off9 : BitVec 9) (s : State) : Host.Outcome State Fault Refusal :=
  .next (if branchTaken n z p s.cond then s.setPc (pcRel9 off9 s) else s)

/-- JMP (R112). -/
def execJmp (baseR : RegIdx) (s : State) : Host.Outcome State Fault Refusal :=
  .next (s.setPc (s.reg baseR))

/-- JSR: the link first, then the target from the same advanced PC (R113). -/
def execJsr (off11 : BitVec 11) (s : State) : Host.Outcome State Fault Refusal :=
  .next ((s.setReg 7 s.pc).setPc (pcRel11 off11 s))

/-- JSRR: the base register is read after the link is written, so `JSRR R7` goes to the next instruction (R114, D14;
notes/assumptions/12.md). -/
def execJsrr (baseR : RegIdx) (s : State) : Host.Outcome State Fault Refusal :=
  let t := s.setReg 7 s.pc
  .next (t.setPc (t.reg baseR))

end Sys2Proof.Machine
end

