-- ==== Sys2Proof/Machine/LoadStore.lean ====
section
/-! DEFINITION. Loads, stores and load effective address (42_load_store.md R120 to R127). -/

namespace Sys2Proof.Machine

/-- LD (R121). -/
def execLd (dr : RegIdx) (off9 : BitVec 9) (s : State) : Host.Outcome State Fault Refusal :=
  let r := memRead (pcRel9 off9 s) s
  .next (writeResult dr r.1 r.2)

/-- LDI: the pointer, then the data, both intercepted reads (R122). -/
def execLdi (dr : RegIdx) (off9 : BitVec 9) (s : State) : Host.Outcome State Fault Refusal :=
  let p := memRead (pcRel9 off9 s) s
  let r := memRead p.1 p.2
  .next (writeResult dr r.1 r.2)

/-- LDR (R123). -/
def execLdr (dr baseR : RegIdx) (off6 : BitVec 6) (s : State) : Host.Outcome State Fault Refusal :=
  let r := memRead (baseOff6 baseR off6 s) s
  .next (writeResult dr r.1 r.2)

/-- LEA: the address itself, no memory access; the flag is set from it (R124). -/
def execLea (dr : RegIdx) (off9 : BitVec 9) (s : State) : Host.Outcome State Fault Refusal :=
  .next (writeResult dr (pcRel9 off9 s) s)

/-- ST (R125). -/
def execSt (sr : RegIdx) (off9 : BitVec 9) (s : State) : Host.Outcome State Fault Refusal :=
  .next (memWrite (pcRel9 off9 s) (s.reg sr) s)

/-- STI: the pointer read is intercepted, the store is not (R126). -/
def execSti (sr : RegIdx) (off9 : BitVec 9) (s : State) : Host.Outcome State Fault Refusal :=
  let p := memRead (pcRel9 off9 s) s
  .next (memWrite p.1 (p.2.reg sr) p.2)

/-- STR (R127). -/
def execStr (sr baseR : RegIdx) (off6 : BitVec 6) (s : State) : Host.Outcome State Fault Refusal :=
  .next (memWrite (baseOff6 baseR off6 s) (s.reg sr) s)

end Sys2Proof.Machine
end

