-- ==== Sys2Proof/Machine/Operate.lean ====
section
/-! DEFINITION. The operate instructions ADD, AND, NOT (40_operate.md R100 to R105). -/

namespace Sys2Proof.Machine

/-- ADD, register form (R101). -/
def execAddReg (dr sr1 sr2 : RegIdx) (s : State) : Host.Outcome State Fault Refusal :=
  .next (writeResult dr (s.reg sr1 + s.reg sr2) s)

/-- ADD, immediate form (R102). -/
def execAddImm (dr sr1 : RegIdx) (imm5 : BitVec 5) (s : State) : Host.Outcome State Fault Refusal :=
  .next (writeResult dr (s.reg sr1 + immOperand imm5) s)

/-- AND, register form (R103). -/
def execAndReg (dr sr1 sr2 : RegIdx) (s : State) : Host.Outcome State Fault Refusal :=
  .next (writeResult dr (s.reg sr1 &&& s.reg sr2) s)

/-- AND, immediate form (R104). -/
def execAndImm (dr sr1 : RegIdx) (imm5 : BitVec 5) (s : State) : Host.Outcome State Fault Refusal :=
  .next (writeResult dr (s.reg sr1 &&& immOperand imm5) s)

/-- NOT (R105). -/
def execNot (dr sr : RegIdx) (s : State) : Host.Outcome State Fault Refusal :=
  .next (writeResult dr (~~~ s.reg sr) s)

end Sys2Proof.Machine
end

