-- ==== Sys2Proof/Machine/Reserved.lean ====
section
/-! DEFINITION. The reserved opcodes RTI and RES: both take the fatal abort (44_reserved.md R160 to R162). -/

namespace Sys2Proof.Machine

/-- RTI: `raise IllegalOpcode(8)` (R161). -/
def execRti (s : State) : Host.Outcome State Fault Refusal := .next (raiseIllegalOpcode s)

/-- RES: `raise IllegalOpcode(13)` (R162). -/
def execRes (s : State) : Host.Outcome State Fault Refusal := .next (raiseIllegalOpcode s)

end Sys2Proof.Machine
end

