-- ==== Sys2Proof/Machine/Routines.lean ====
section
/-! DEFINITION. The six hardwired service routines of the trap dispatcher, the undefined vectors, and going on with an
instruction the machine is held inside (43_trap.md R140 to R150). None of them touches the PC, R7 or the flag (R141). -/

namespace Sys2Proof.Machine

/-- The reading half of GETC: take a character into R0, or hold while there is none (R142, R149). -/
def getcTake (s : State) : State :=
  match readChar s with
  | some (c, t) => t.setReg 0 (zext16 c)
  | none => s.setHold (some .getc)

/-- OUT: the low byte of R0 (R143). -/
def outChar (s : State) : State := putChars [lowByte (s.reg 0)] s

/-- The reading half of IN: take a character, echo it, put it into R0; or hold while there is none (R145, R149). -/
def inTake (s : State) : State :=
  match readChar s with
  | some (c, t) => (putChars [c] t).setReg 0 (zext16 c)
  | none => s.setHold (some .inChar)

/-- IN: the prompt, then the reading half (R145). -/
def inPrompted (s : State) : State := inTake (putChars Config.inPrompt s)

/-- The bytes a scanned word puts out: PUTS its low byte (R144); PUTSP its low byte, then its high byte if that is
not zero (R146). -/
def scanBytes : ScanKind → Word → List Byte
  | .puts, w => [lowByte w]
  | .putsp, w => if highByte w = 0 then [lowByte w] else [lowByte w, highByte w]

/-- The scan loop of PUTS and PUTSP for at most `n` words from address `a`: up to the first zero word, which is read
and not written out; the address wraps (R144, R146). Answers `none` when it met a zero word, else the pointer it has
reached. -/
def scanLoop (intercepted : Bool) (kind : ScanKind) : Nat → Word → State → Option Word × State
  | 0, a, s => (some a, s)
  | n + 1, a, s =>
    let r := scanRead intercepted a s
    if r.1 = 0 then (none, r.2) else scanLoop intercepted kind n (a + 1) (putChars (scanBytes kind r.1) r.2)

/-- How many words a scan reads before it is known never to end: one round of memory; and, where the scan is
intercepted, one more round for every character a read of KBSR could take (notes/assumptions/24.md). -/
def scanBound (intercepted : Bool) (s : State) : Nat :=
  if intercepted then 65536 * (s.input.length + 1) else 65536

/-- Scan from `a`. A scan that meets no zero word "never completes" (R144): the machine is then held inside it. -/
def scanFrom (intercepted : Bool) (kind : ScanKind) (a : Word) (s : State) : State :=
  match scanLoop intercepted kind (scanBound intercepted s) a s with
  | (none, t) => t
  | (some b, t) => t.setHold (some (.scan kind b))

/-- PUTS and PUTSP: scan from the address in R0, which is left alone (R144, R146). -/
def putString (kind : ScanKind) (s : State) : State := scanFrom Config.trapScanIntercepted kind (s.reg 0) s

/-- HALT: the notice, then `run <- HALTED` (R147). -/
def haltRun (s : State) : State := (putChars Config.haltNotice s).setRun .halted

/-- A vector outside 0x20..0x25, under a value of UNDEFINED_TRAP: nothing, or the fatal abort (R150). -/
def undefinedVector (u : UndefinedTrap) (s : State) : State :=
  match u with
  | .noop => s
  | .fatal => raiseIllegalOpcode s

/-- Going on with the instruction the machine is held inside. GETC and IN look at the stop request first, then for a
character (R149, R173; notes/assumptions/14.md). A scan goes on; the stop is not sampled inside it (R173). -/
def resumeHold (h : Hold) (s : State) : State :=
  match h with
  | .getc => if s.stopReq then stopRun (s.setHold none) else getcTake (s.setHold none)
  | .inChar => if s.stopReq then stopRun (s.setHold none) else inTake (s.setHold none)
  | .scan kind a => scanFrom Config.trapScanIntercepted kind a (s.setHold none)

end Sys2Proof.Machine
end

