-- ==== Sys2Proof/Machine/Trap.lean ====
section
/-! DEFINITION. TRAP: one meaning per row of the opcode table (43_trap.md R141 to R150). The whole routine is one step
(R140) and control falls through to the next instruction. -/

namespace Sys2Proof.Machine

/-- TRAP 0x20, GETC (R142). -/
def execTrapGetc (s : State) : Host.Outcome State Fault Refusal := .next (getcTake s)

/-- TRAP 0x21, OUT (R143). -/
def execTrapOut (s : State) : Host.Outcome State Fault Refusal := .next (outChar s)

/-- TRAP 0x22, PUTS (R144). -/
def execTrapPuts (s : State) : Host.Outcome State Fault Refusal := .next (putString .puts s)

/-- TRAP 0x23, IN (R145). -/
def execTrapIn (s : State) : Host.Outcome State Fault Refusal := .next (inPrompted s)

/-- TRAP 0x24, PUTSP (R146). -/
def execTrapPutsp (s : State) : Host.Outcome State Fault Refusal := .next (putString .putsp s)

/-- TRAP 0x25, HALT (R147). -/
def execTrapHalt (s : State) : Host.Outcome State Fault Refusal := .next (haltRun s)

/-- TRAP with the vector as an operand: the dispatch of R141. The decoder gives this form the undefined vectors alone
(R150); on a vector that has a row of its own it does what that row does (notes/assumptions/29.md). -/
def execTrap (vect8 : BitVec 8) (s : State) : Host.Outcome State Fault Refusal :=
  .next (match vect8 with
    | 0x20#8 => getcTake s
    | 0x21#8 => outChar s
    | 0x22#8 => putString .puts s
    | 0x23#8 => inPrompted s
    | 0x24#8 => putString .putsp s
    | 0x25#8 => haltRun s
    | _ => undefinedVector Config.undefinedTrap s)

end Sys2Proof.Machine
end

