-- ==== Sys2Proof/Machine/Dispatch.lean ====
section
/-! DEFINITION. What each instruction does, one arm per row of the opcode table (30_encoding.md R82). The state given
is the one after the fetch: its PC is the address of the next instruction (10_state.md R23). -/

namespace Sys2Proof.Machine

def exec (i : Instr) (s : State) : Host.Outcome State Fault Refusal :=
  match i with
  | .br n z p off9 => Sys2Proof.Machine.execBr n z p off9 s
  | .addReg dr sr1 sr2 => Sys2Proof.Machine.execAddReg dr sr1 sr2 s
  | .addImm dr sr1 imm5 => Sys2Proof.Machine.execAddImm dr sr1 imm5 s
  | .ld dr off9 => Sys2Proof.Machine.execLd dr off9 s
  | .st sr off9 => Sys2Proof.Machine.execSt sr off9 s
  | .jsr off11 => Sys2Proof.Machine.execJsr off11 s
  | .jsrr baseR => Sys2Proof.Machine.execJsrr baseR s
  | .andReg dr sr1 sr2 => Sys2Proof.Machine.execAndReg dr sr1 sr2 s
  | .andImm dr sr1 imm5 => Sys2Proof.Machine.execAndImm dr sr1 imm5 s
  | .ldr dr baseR off6 => Sys2Proof.Machine.execLdr dr baseR off6 s
  | .str sr baseR off6 => Sys2Proof.Machine.execStr sr baseR off6 s
  | .rti => Sys2Proof.Machine.execRti s
  | .not dr sr => Sys2Proof.Machine.execNot dr sr s
  | .ldi dr off9 => Sys2Proof.Machine.execLdi dr off9 s
  | .sti sr off9 => Sys2Proof.Machine.execSti sr off9 s
  | .jmp baseR => Sys2Proof.Machine.execJmp baseR s
  | .res => Sys2Proof.Machine.execRes s
  | .lea dr off9 => Sys2Proof.Machine.execLea dr off9 s
  | .trapGetc => Sys2Proof.Machine.execTrapGetc s
  | .trapOut => Sys2Proof.Machine.execTrapOut s
  | .trapPuts => Sys2Proof.Machine.execTrapPuts s
  | .trapIn => Sys2Proof.Machine.execTrapIn s
  | .trapPutsp => Sys2Proof.Machine.execTrapPutsp s
  | .trapHalt => Sys2Proof.Machine.execTrapHalt s
  | .trap vect8 => Sys2Proof.Machine.execTrap vect8 s

end Sys2Proof.Machine
end

