-- ==== Sys2Proof/Machine/Controller.lean ====
section
/-! DEFINITION. The controller's step (10_state.md R23), with the host's part before it (60_exceptions.md R181) and the
hold of an instruction that waits (43_trap.md R149). -/

namespace Sys2Proof.Machine

/-- One instruction from its fetch to its last statement (R23). -/
def fetchExecute (s : State) : Host.Outcome State Fault Refusal :=
  let f := fetch s
  exec (decode f.1) f.2

/-- The step of a running machine after the host's turn. A held instruction goes on first (R149); at a step boundary
the stop request is sampled before the fetch (R23, R173, R174). -/
def runningStep (s : State) : Host.Outcome State Fault Refusal :=
  match s.hold with
  | some h => .next (resumeHold h s)
  | none => if s.stopReq then .next (stopRun s) else fetchExecute s

/-- The controller: it steps while `run = RUNNING`; "in any other run state it has no step" (R23, R27). -/
def controllerStep (s : State) : Host.Outcome State Fault Refusal :=
  match s.run with
  | .running => runningStep (hostTurn s)
  | .halted => .fault (.noStep .halted)
  | .aborted => .fault (.noStep .aborted)
  | .stopped => .fault (.noStep .stopped)

/-- Place the word `w` where the next step fetches, and clear whatever would keep that step from fetching it: a
terminal run state, a hold, a stop request, what the host's plan has for that step (put off by one step). A PC at KBSR
moves to ENTRY_PC, since a fetch from KBSR reads what the poll puts there (R54; notes/assumptions/27.md). -/
def placeFetched (w : Word) (s : State) : State :=
  let at' := if s.pc = Config.kbsr then Config.entryPc else s.pc
  { s with
    pc := at'
    mem := Memory.write s.mem at' w
    run := .running
    stopReq := false
    hold := none
    hostPlan := match s.hostPlan with
      | [] => []
      | plan => [] :: plan }

end Sys2Proof.Machine
end

