-- ==== Sys2Proof/Machine/Step.lean ====
section
/-! DEFINITION. One step of the machine, and the host's way of placing an instruction for it. -/

namespace Sys2Proof.Machine

/-- One step (10_state.md R23): next, fault or refusal. -/
def step (s : State) : Host.Outcome State Fault Refusal := controllerStep s

/-- The state with the instruction whose bits are `w` (opcode-table numbering) stored where `step` fetches next. -/
def State.withFetchWord (s : State) (nbits w : Nat) : State := placeFetched (tableWord nbits w) s

end Sys2Proof.Machine
end

