-- ==== Sys2Proof/Machine/HostLoad.lean ====
section
/-! DEFINITION. The host's load of memory before the first step (70_reset_and_hazards.md R197). Reading the image file
and swapping its bytes is out of scope (00_scope.md R4); an image here is its words. -/

namespace Sys2Proof.Machine

/-- A program image: the origin (the image's first word) and the words after it (R197). -/
structure Image where
  origin : Word
  words : List Word
deriving DecidableEq, Repr

/-- Store the words at consecutive addresses from `a`. -/
def storeWords : List Word → Word → Memory → Memory
  | [], _, m => m
  | w :: ws, a, m => storeWords ws (a + 1) (Memory.write m a w)

/-- Load one image; "caps read count at 65536 - origin", so no load wraps (R197, R51). -/
def loadImage (m : Memory) (i : Image) : Memory :=
  storeWords (i.words.take (65536 - i.origin.toNat)) i.origin m

/-- Load images in the order given: a later one overwrites an earlier one where they overlap (R197). -/
def hostLoad (images : List Image) (s : State) : State := s.setMem (images.foldl loadImage s.mem)

end Sys2Proof.Machine
end

