-- ==== Sys2Proof/Safety.lean ====
section
/-! DEFINITION. The terms claims are stated in: the invariant of a run, what "unchanged" means, and which instruction
may write what (10_state.md R20, R22, R26; 20_memory.md R44 to R47). -/

namespace Sys2Proof.Machine

/-- What every step keeps: memory is in its canonical form, and only a running machine is held inside an instruction. -/
abbrev State.Inv (s : State) : Prop := Memory.wf s.mem = true ∧ (s.hold ≠ none → s.run = .running)

/-! ### What is unchanged -/

/-- Every general register is unchanged. -/
abbrev RegsSame (s t : State) : Prop := ∀ r, t.reg r = s.reg r

/-- Every general register but `d` is unchanged. -/
abbrev RegsSameBut (d : RegIdx) (s t : State) : Prop := ∀ r, r ≠ d → t.reg r = s.reg r

/-- Every cell of memory is unchanged. -/
abbrev CellsSame (s t : State) : Prop := ∀ a, t.cell a = s.cell a

/-- Every cell of memory but the one at `d` is unchanged. -/
abbrev CellsSameBut (d : Word) (s t : State) : Prop := ∀ a, a ≠ d → t.cell a = s.cell a

/-- The input source and the output sink are unchanged. -/
abbrev IoSame (s t : State) : Prop := t.input = s.input ∧ t.output = s.output

/-- The run state, the hold, the stop request and the host's plan are unchanged. -/
abbrev StatusSame (s t : State) : Prop :=
  t.run = s.run ∧ t.hold = s.hold ∧ t.stopReq = s.stopReq ∧ t.hostPlan = s.hostPlan

/-- The flag as R25 gives it for a value: 0x0000 gives Z, bit 15 set gives N, anything else gives P. -/
abbrev FlagOf (v : Word) (c : Cond) : Prop :=
  (v = 0 → c = .zero) ∧ (v.getLsbD 15 = true → c = .negative) ∧ (v ≠ 0 → v.getLsbD 15 = false → c = .positive)

/-! ### Which instruction may write what -/

/-- The register whose new value sets the flag: DR of the seven flag-writing instructions (R26). -/
def flagDest : Instr → Option RegIdx
  | .addReg dr _ _ | .addImm dr _ _ | .andReg dr _ _ | .andImm dr _ _ | .not dr _ | .ld dr _ | .ldi dr _ | .ldr dr _ _
  | .lea dr _ => some dr
  | .br _ _ _ _ | .st _ _ | .jsr _ | .jsrr _ | .str _ _ _ | .rti | .sti _ _ | .jmp _ | .res | .trapGetc | .trapOut
  | .trapPuts | .trapIn | .trapPutsp | .trapHalt | .trap _ => none

/-- The general registers an instruction may write: DR, R7 of JSR and JSRR, R0 of GETC and IN (R20). -/
def writtenRegs : Instr → List RegIdx
  | .addReg dr _ _ | .addImm dr _ _ | .andReg dr _ _ | .andImm dr _ _ | .not dr _ | .ld dr _ | .ldi dr _ | .ldr dr _ _
  | .lea dr _ => [dr]
  | .jsr _ | .jsrr _ => [7]
  | .trapGetc | .trapIn => [0]
  | .br _ _ _ _ | .st _ _ | .str _ _ _ | .rti | .sti _ _ | .jmp _ | .res | .trapOut | .trapPuts | .trapPutsp
  | .trapHalt | .trap _ => []

/-- The instructions that write the PC after the fetch: BR, JMP, JSR, JSRR (R22). -/
def writesPc : Instr → Bool
  | .br _ _ _ _ | .jmp _ | .jsr _ | .jsrr _ => true
  | .addReg _ _ _ | .addImm _ _ _ | .andReg _ _ _ | .andImm _ _ _ | .not _ _ | .ld _ _ | .ldi _ _ | .ldr _ _ _
  | .lea _ _ | .st _ _ | .str _ _ _ | .rti | .sti _ _ | .res | .trapGetc | .trapOut | .trapPuts | .trapIn | .trapPutsp
  | .trapHalt | .trap _ => false

/-- The instructions that write to the output sink: OUT, PUTS, PUTSP, IN, HALT (R49). -/
def writesOutput : Instr → Bool
  | .trapOut | .trapPuts | .trapIn | .trapPutsp | .trapHalt => true
  | .br _ _ _ _ | .jmp _ | .jsr _ | .jsrr _ | .addReg _ _ _ | .addImm _ _ _ | .andReg _ _ _ | .andImm _ _ _ | .not _ _
  | .ld _ _ | .ldi _ _ | .ldr _ _ _ | .lea _ _ | .st _ _ | .str _ _ _ | .rti | .sti _ _ | .res | .trapGetc
  | .trap _ => false

/-- The addresses an instruction reads through `MemRead` after its fetch, in order (R44). -/
def readAddresses (i : Instr) (s : State) : List Word :=
  match i with
  | .ld _ off9 => [pcRel9 off9 s]
  | .ldi _ off9 => [pcRel9 off9 s, (memRead (pcRel9 off9 s) s).1]
  | .ldr _ baseR off6 => [baseOff6 baseR off6 s]
  | .sti _ off9 => [pcRel9 off9 s]
  | .br _ _ _ _ | .jmp _ | .jsr _ | .jsrr _ | .addReg _ _ _ | .addImm _ _ _ | .andReg _ _ _ | .andImm _ _ _ | .not _ _
  | .lea _ _ | .st _ _ | .str _ _ _ | .rti | .res | .trapGetc | .trapOut | .trapPuts | .trapIn | .trapPutsp | .trapHalt
  | .trap _ => []

/-- Does the instruction read KBSR, and so poll the keyboard? (R45, R46). -/
abbrev Polls (i : Instr) (s : State) : Prop := Config.kbsr ∈ readAddresses i s

/-- The address an instruction stores to (R44, R125 to R127). -/
def storeAddress (i : Instr) (s : State) : Option Word :=
  match i with
  | .st _ off9 => some (pcRel9 off9 s)
  | .sti _ off9 => some (memRead (pcRel9 off9 s) s).1
  | .str _ baseR off6 => some (baseOff6 baseR off6 s)
  | .ld _ _ | .ldi _ _ | .ldr _ _ _ | .br _ _ _ _ | .jmp _ | .jsr _ | .jsrr _ | .addReg _ _ _ | .addImm _ _ _
  | .andReg _ _ _ | .andImm _ _ _ | .not _ _ | .lea _ _ | .rti | .res | .trapGetc | .trapOut | .trapPuts | .trapIn
  | .trapPutsp | .trapHalt | .trap _ => none

/-- The instruction a running machine fetches in this step, after the host's turn (R23). -/
def fetchedInstr (s : State) : Instr := decode (fetch (hostTurn s)).1

/-- The bytes a list of the host's actions supplies, in order (R31, R181). -/
def suppliedBytes : List HostAction → List Byte
  | [] => []
  | .supply b :: acts => b :: suppliedBytes acts
  | .requestStop :: acts => suppliedBytes acts

/-- At a step boundary a running machine with no stop request fetches and executes (R23). -/
abbrev State.Fetches (s : State) : Prop := s.run = .running ∧ s.hold = none ∧ (hostTurn s).stopReq = false

/-- The words an image covers (R197). -/
abbrev Image.Covers (i : Image) (a : Word) : Prop := ∃ k, k < i.words.length ∧ i.origin.toNat + k = a.toNat

/-- The `n` words of a string from address `a`, none of them zero, and the zero word after them (R144, R146). -/
abbrev StringAt (s : State) (a : Word) (n : Nat) : Prop :=
  n < 65536 ∧ (∀ k, k < n → s.cell (a + BitVec.ofNat 16 k) ≠ 0) ∧ s.cell (a + BitVec.ofNat 16 n) = 0

/-- The cells from address `a`, `n` of them, in order. -/
def cellsFrom (s : State) (a : Word) (n : Nat) : List Word := (List.range n).map fun k => s.cell (a + BitVec.ofNat 16 k)

/-- All the bits of `w` under `mask` may be changed without changing what it decodes to (R84). -/
abbrev DecodesAlikeUnder (mask w : Word) : Prop := ∀ v : Word, decode ((w &&& ~~~mask) ||| (v &&& mask)) = decode w

end Sys2Proof.Machine
end

