-- ==== Sys2Proof/Certificates/Slice0/Obligations.lean ====
section
/-! DEFINITION. The statements for the provers, each a rule (or several) of spec/. `exec` is given the state after the
fetch, whose PC is the address of the next instruction (10_state.md R23). A statement about an instruction says how it
is encoded, that it completes from every state, what it writes and what it leaves unchanged. Opcode numbers and field
positions are as R71 to R82 and each instruction's rule state them; the spec marks them as its own decisions D1 and D2
(notes/assumptions/1.md). -/

open Sys2Proof Sys2Proof.Machine

/-! ### Decoding -/

/-- Words written out in 95_test_vectors.md decode to the instructions they stand for there, one of each row. -/
def Obligations.SpecWordsDecode : Prop :=
  decode 0x03FD#16 = .br false false true 0x1FD#9 ∧ decode 0x1042#16 = .addReg 0 1 2 ∧
  decode 0x103F#16 = .addImm 0 0 0x1F#5 ∧ decode 0x2005#16 = .ld 0 5#9 ∧ decode 0x3004#16 = .st 0 4#9 ∧
  decode 0x4802#16 = .jsr 2#11 ∧ decode 0x4080#16 = .jsrr 2 ∧ decode 0x5042#16 = .andReg 0 1 2 ∧
  decode 0x5020#16 = .andImm 0 0 0#5 ∧ decode 0x607F#16 = .ldr 0 1 0x3F#6 ∧ decode 0x7281#16 = .str 1 2 1#6 ∧
  decode 0x8000#16 = .rti ∧ decode 0x92BF#16 = .not 1 2 ∧ decode 0xA004#16 = .ldi 0 4#9 ∧
  decode 0xB602#16 = .sti 3 2#9 ∧ decode 0xC1C0#16 = .jmp 7 ∧ decode 0xD123#16 = .res ∧ decode 0xE005#16 = .lea 0 5#9 ∧
  decode 0xF020#16 = .trapGetc ∧ decode 0xF021#16 = .trapOut ∧ decode 0xF022#16 = .trapPuts ∧
  decode 0xF023#16 = .trapIn ∧ decode 0xF024#16 = .trapPutsp ∧ decode 0xFF25#16 = .trapHalt ∧
  decode 0xF0FF#16 = .trap 0xFF#8

/-- Decode and encode agree: no field of any well-formed instruction is dropped or moved (R72 to R81). -/
def Obligations.DecodeOfEncode : Prop := ∀ i : Instr, i.wellFormed = true → decode (encode i) = i

/-- Every word decodes to a well-formed instruction, whose canonical word differs from it in ignored bits alone
(R84, R86). -/
def Obligations.EncodeOfDecode : Prop :=
  ∀ w : Word, (decode w).wellFormed = true ∧ encode (decode w) &&& ~~~ ignoredBits w = w &&& ~~~ ignoredBits w

/-- R84: the ignored bits of each format do not matter; that they are not checked is the spec's decision D4
(notes/assumptions/2.md). -/
def Obligations.IgnoredBitsDoNotMatter : Prop :=
  ∀ w : Word,
    (opcodeOf w = 1#4 ∨ opcodeOf w = 5#4 → w.getLsbD 5 = false → DecodesAlikeUnder 0x0018#16 w) ∧
    (opcodeOf w = 9#4 → DecodesAlikeUnder 0x003F#16 w) ∧
    (opcodeOf w = 12#4 → DecodesAlikeUnder 0x0E3F#16 w) ∧
    (opcodeOf w = 4#4 → w.getLsbD 11 = false → DecodesAlikeUnder 0x063F#16 w) ∧
    (opcodeOf w = 15#4 → DecodesAlikeUnder 0x0F00#16 w) ∧
    (opcodeOf w = 8#4 ∨ opcodeOf w = 13#4 → DecodesAlikeUnder 0x0FFF#16 w)

/-- R82: every word matches the row of the instruction it decodes to, and no other row but the fallback TRAP row, which
overlaps the six vector rows alone; so the 25 rows partition all words. -/
def Obligations.OpcodeMapPartitionsWords : Prop :=
  opcodeTable.length = 25 ∧
  ∀ w : Word, (decode w).row ∈ opcodeTable ∧ (decode w).row.matches w = true ∧
    ∀ r ∈ opcodeTable, r.matches w = true →
      r = (decode w).row ∨ (r = ⟨"TRAP", 0xF000#16, 0xF000#16⟩ ∧ (decode w).row.mask = 0xF0FF#16)

/-- R8: `sext_N` keeps the low N bits and copies bit N-1 into every higher bit; the closed form is the same function;
and the four signed fields are read with it (R83). -/
def Obligations.SignExtension : Prop :=
  (∀ (n : Nat) (v : Word), 1 ≤ n → n ≤ 16 →
    (∀ k, k < n → (sext n v).getLsbD k = v.getLsbD k) ∧
    (∀ k, n ≤ k → k < 16 → (sext n v).getLsbD k = v.getLsbD (n - 1)) ∧
    (sext n v).toNat =
      (if v.toNat % 2 ^ n < 2 ^ (n - 1) then v.toNat % 2 ^ n else v.toNat % 2 ^ n + 65536 - 2 ^ n)) ∧
  ∀ w : Word, sextField (lowField 5 w) = sext 5 w ∧ sextField (lowField 6 w) = sext 6 w ∧
    sextField (lowField 9 w) = sext 9 w ∧ sextField (lowField 11 w) = sext 11 w

/-- R86: the words that do not execute as an instruction are exactly 0x8000..0x8FFF and 0xD000..0xDFFF; those abort,
and no other word does. That the words with other values in ignored bits and the undefined TRAP vectors execute rests on
the spec's decisions D4 and D5 (notes/assumptions/2.md, 3.md). -/
def Obligations.IllegalEncodings : Prop :=
  ∀ (w : Word) (s : State),
    (decode w = .rti ↔ 0x8000#16 ≤ w ∧ w ≤ 0x8FFF#16) ∧
    (decode w = .res ↔ 0xD000#16 ≤ w ∧ w ≤ 0xDFFF#16) ∧
    (decode w = .rti ∨ decode w = .res → ∃ t, exec (decode w) s = .next t ∧ t.run = .aborted) ∧
    (decode w ≠ .rti → decode w ≠ .res →
      ∃ t, exec (decode w) s = .next t ∧ (t.run = .aborted → s.run = .aborted))

/-! ### ADD, AND, NOT -/

/-- R101: ADD, register form. -/
def Obligations.AddRegister : Prop :=
  (∀ ir : Word, opcodeOf ir = 1#4 → ir.getLsbD 5 = false →
    decode ir = .addReg (ir.extractLsb' 9 3).toFin (ir.extractLsb' 6 3).toFin (ir.extractLsb' 0 3).toFin) ∧
  ∀ (dr sr1 sr2 : RegIdx) (s : State), ∃ t, exec (.addReg dr sr1 sr2) s = .next t ∧
    (t.reg dr).toNat = ((s.reg sr1).toNat + (s.reg sr2).toNat) % 65536 ∧ FlagOf (t.reg dr) t.cond ∧
    RegsSameBut dr s t ∧ t.pc = s.pc ∧ CellsSame s t ∧ IoSame s t ∧ StatusSame s t

/-- R102: ADD, immediate form, and its agreement with the register form. -/
def Obligations.AddImmediate : Prop :=
  (∀ ir : Word, opcodeOf ir = 1#4 → ir.getLsbD 5 = true →
    decode ir = .addImm (ir.extractLsb' 9 3).toFin (ir.extractLsb' 6 3).toFin (ir.extractLsb' 0 5)) ∧
  (∀ (dr sr1 : RegIdx) (imm5 : BitVec 5) (s : State), ∃ t, exec (.addImm dr sr1 imm5) s = .next t ∧
    (t.reg dr).toNat = ((s.reg sr1).toNat + (sextField imm5).toNat) % 65536 ∧ FlagOf (t.reg dr) t.cond ∧
    RegsSameBut dr s t ∧ t.pc = s.pc ∧ CellsSame s t ∧ IoSame s t ∧ StatusSame s t) ∧
  ∀ (dr sr1 sr2 : RegIdx) (imm5 : BitVec 5) (s : State), s.reg sr2 = sextField imm5 →
    exec (.addImm dr sr1 imm5) s = exec (.addReg dr sr1 sr2) s ∧
    exec (.andImm dr sr1 imm5) s = exec (.andReg dr sr1 sr2) s

/-- R103: AND, register form, bit by bit. -/
def Obligations.AndRegister : Prop :=
  (∀ ir : Word, opcodeOf ir = 5#4 → ir.getLsbD 5 = false →
    decode ir = .andReg (ir.extractLsb' 9 3).toFin (ir.extractLsb' 6 3).toFin (ir.extractLsb' 0 3).toFin) ∧
  ∀ (dr sr1 sr2 : RegIdx) (s : State), ∃ t, exec (.andReg dr sr1 sr2) s = .next t ∧
    (∀ k, k < 16 → (t.reg dr).getLsbD k = ((s.reg sr1).getLsbD k && (s.reg sr2).getLsbD k)) ∧
    FlagOf (t.reg dr) t.cond ∧ RegsSameBut dr s t ∧ t.pc = s.pc ∧ CellsSame s t ∧ IoSame s t ∧ StatusSame s t

/-- R104: AND, immediate form; the immediate is sign-extended. -/
def Obligations.AndImmediate : Prop :=
  (∀ ir : Word, opcodeOf ir = 5#4 → ir.getLsbD 5 = true →
    decode ir = .andImm (ir.extractLsb' 9 3).toFin (ir.extractLsb' 6 3).toFin (ir.extractLsb' 0 5)) ∧
  ∀ (dr sr1 : RegIdx) (imm5 : BitVec 5) (s : State), ∃ t, exec (.andImm dr sr1 imm5) s = .next t ∧
    (∀ k, k < 16 → (t.reg dr).getLsbD k = ((s.reg sr1).getLsbD k && (sextField imm5).getLsbD k)) ∧
    FlagOf (t.reg dr) t.cond ∧ RegsSameBut dr s t ∧ t.pc = s.pc ∧ CellsSame s t ∧ IoSame s t ∧ StatusSame s t

/-- R105: NOT; the complement is 65535 less the operand. -/
def Obligations.NotComplement : Prop :=
  (∀ ir : Word, opcodeOf ir = 9#4 → decode ir = .not (ir.extractLsb' 9 3).toFin (ir.extractLsb' 6 3).toFin) ∧
  ∀ (dr sr : RegIdx) (s : State), ∃ t, exec (.not dr sr) s = .next t ∧
    (t.reg dr).toNat = 65535 - (s.reg sr).toNat ∧ FlagOf (t.reg dr) t.cond ∧
    RegsSameBut dr s t ∧ t.pc = s.pc ∧ CellsSame s t ∧ IoSame s t ∧ StatusSame s t

/-! ### Control transfer -/

/-- R111: BR. The branch is taken when the mask bit of the flag is 1, and then the PC moves by the sign-extended offset;
nothing else changes. Which mask bit goes with which flag is the spec's decision D3 (notes/assumptions/1.md). -/
def Obligations.Branch : Prop :=
  (∀ ir : Word, opcodeOf ir = 0#4 →
    decode ir = .br (ir.getLsbD 11) (ir.getLsbD 10) (ir.getLsbD 9) (ir.extractLsb' 0 9)) ∧
  ∀ (n z p : Bool) (off9 : BitVec 9) (s : State), ∃ t, exec (.br n z p off9) s = .next t ∧
    ((n = true ∧ s.cond = .negative) ∨ (z = true ∧ s.cond = .zero) ∨ (p = true ∧ s.cond = .positive) →
      t.pc = s.pc + sextField off9) ∧
    (¬ ((n = true ∧ s.cond = .negative) ∨ (z = true ∧ s.cond = .zero) ∨ (p = true ∧ s.cond = .positive)) →
      t.pc = s.pc) ∧
    RegsSame s t ∧ t.cond = s.cond ∧ CellsSame s t ∧ IoSame s t ∧ StatusSame s t

/-- R85: the 512 words 0x0000..0x01FF are no-ops, and a mask of 111 always branches. -/
def Obligations.NoOpEncodings : Prop :=
  (∀ (w : Word) (s : State), w ≤ 0x01FF#16 → exec (decode w) s = .next s) ∧
  ∀ (w : Word) (s : State), opcodeOf w = 0#4 → w.extractLsb' 9 3 = 7#3 →
    ∃ t, exec (decode w) s = .next t ∧ t.pc = s.pc + sext 9 w

/-- R112: JMP. -/
def Obligations.Jump : Prop :=
  (∀ ir : Word, opcodeOf ir = 12#4 → decode ir = .jmp (ir.extractLsb' 6 3).toFin) ∧
  ∀ (baseR : RegIdx) (s : State), ∃ t, exec (.jmp baseR) s = .next t ∧ t.pc = s.reg baseR ∧
    RegsSame s t ∧ t.cond = s.cond ∧ CellsSame s t ∧ IoSame s t ∧ StatusSame s t

/-- R113: JSR. R7 gets the address of the next instruction; the flag is not changed. -/
def Obligations.JumpSubroutine : Prop :=
  (∀ ir : Word, opcodeOf ir = 4#4 → ir.getLsbD 11 = true → decode ir = .jsr (ir.extractLsb' 0 11)) ∧
  ∀ (off11 : BitVec 11) (s : State), ∃ t, exec (.jsr off11) s = .next t ∧
    t.reg 7 = s.pc ∧ t.pc = s.pc + sextField off11 ∧
    RegsSameBut 7 s t ∧ t.cond = s.cond ∧ CellsSame s t ∧ IoSame s t ∧ StatusSame s t

/-- R114: JSRR. The base register is read after the write of R7, so `JSRR R7` goes to the next instruction:
the spec's decision D14 (notes/assumptions/12.md). -/
def Obligations.JumpSubroutineRegister : Prop :=
  (∀ ir : Word, opcodeOf ir = 4#4 → ir.getLsbD 11 = false → decode ir = .jsrr (ir.extractLsb' 6 3).toFin) ∧
  ∀ (baseR : RegIdx) (s : State), ∃ t, exec (.jsrr baseR) s = .next t ∧ t.reg 7 = s.pc ∧
    (baseR ≠ 7 → t.pc = s.reg baseR) ∧ (baseR = 7 → t.pc = s.pc) ∧
    RegsSameBut 7 s t ∧ t.cond = s.cond ∧ CellsSame s t ∧ IoSame s t ∧ StatusSame s t

/-- A JMP through R7 that runs with R7 as a JSR left it goes to the instruction after the JSR (V304). -/
def Obligations.CallReturns : Prop :=
  ∀ (off11 : BitVec 11) (s t u : State), exec (.jsr off11) s = .next t → u.reg 7 = t.reg 7 →
    ∃ v, exec (.jmp 7) u = .next v ∧ v.pc = s.pc

/-! ### Memory primitives -/

/-- R45: `MemRead`. A read of KBSR polls; a read of any other address returns the cell and changes nothing.
The value exactly 0x8000 and the zero high byte of KBDR are the spec's decisions D21 and D12 (notes/assumptions/19.md,
10.md). -/
def Obligations.InterceptedRead : Prop :=
  ∀ (a : Word) (s : State),
    (a ≠ Config.kbsr → memRead a s = (s.cell a, s)) ∧
    ((memRead a s).1 = (memRead a s).2.cell a) ∧
    (RegsSame s (memRead a s).2 ∧ (memRead a s).2.pc = s.pc ∧ (memRead a s).2.cond = s.cond ∧
      (memRead a s).2.output = s.output ∧ StatusSame s (memRead a s).2) ∧
    (a = Config.kbsr → s.input = [] → (memRead a s).1 = 0x0000#16 ∧ (memRead a s).2.input = [] ∧
      CellsSameBut Config.kbsr s (memRead a s).2) ∧
    (∀ c rest, a = Config.kbsr → s.input = c :: rest → (memRead a s).1 = 0x8000#16 ∧
      (memRead a s).2.cell Config.kbdr = c.setWidth 16 ∧ (memRead a s).2.input = rest ∧
      ∀ b, b ≠ Config.kbsr → b ≠ Config.kbdr → (memRead a s).2.cell b = s.cell b)

/-- R47: `MemWrite` stores the word, at every address alike, and changes nothing else. -/
def Obligations.PlainStore : Prop :=
  ∀ (a v : Word) (s : State), (memWrite a v s).cell a = v ∧ CellsSameBut a s (memWrite a v s) ∧
    RegsSame s (memWrite a v s) ∧ (memWrite a v s).pc = s.pc ∧ (memWrite a v s).cond = s.cond ∧
    IoSame s (memWrite a v s) ∧ StatusSame s (memWrite a v s)

/-- R148: `ScanRead`, for both values of the parameter: raw, it changes nothing; intercepted, it is `MemRead`; the two
differ at KBSR alone. The value of the parameter is the spec's decision D9 (notes/assumptions/7.md). -/
def Obligations.ScanReadBothWays : Prop :=
  ∀ (a : Word) (s : State), scanRead false a s = (s.cell a, s) ∧ scanRead true a s = memRead a s ∧
    (a ≠ Config.kbsr → scanRead true a s = scanRead false a s) ∧ Config.trapScanIntercepted = false

/-! ### Loads, stores, LEA -/

/-- R121: LD. -/
def Obligations.Load : Prop :=
  (∀ ir : Word, opcodeOf ir = 2#4 → decode ir = .ld (ir.extractLsb' 9 3).toFin (ir.extractLsb' 0 9)) ∧
  ∀ (dr : RegIdx) (off9 : BitVec 9) (s : State), ∃ t, exec (.ld dr off9) s = .next t ∧
    t.reg dr = (memRead (s.pc + sextField off9) s).1 ∧ FlagOf (t.reg dr) t.cond ∧ RegsSameBut dr s t ∧ t.pc = s.pc ∧
    CellsSame (memRead (s.pc + sextField off9) s).2 t ∧ IoSame (memRead (s.pc + sextField off9) s).2 t ∧
    t.output = s.output ∧ StatusSame s t

/-- R122: LDI. The first read gives the pointer, the second, from the state the first leaves, gives the data. -/
def Obligations.LoadIndirect : Prop :=
  (∀ ir : Word, opcodeOf ir = 10#4 → decode ir = .ldi (ir.extractLsb' 9 3).toFin (ir.extractLsb' 0 9)) ∧
  ∀ (dr : RegIdx) (off9 : BitVec 9) (s : State), ∃ t, exec (.ldi dr off9) s = .next t ∧
    (let ptr := memRead (s.pc + sextField off9) s
     let data := memRead ptr.1 ptr.2
     t.reg dr = data.1 ∧ FlagOf (t.reg dr) t.cond ∧ CellsSame data.2 t ∧ IoSame data.2 t) ∧
    RegsSameBut dr s t ∧ t.pc = s.pc ∧ t.output = s.output ∧ StatusSame s t

/-- R123: LDR. The base is read before DR is written. -/
def Obligations.LoadBaseOffset : Prop :=
  (∀ ir : Word, opcodeOf ir = 6#4 →
    decode ir = .ldr (ir.extractLsb' 9 3).toFin (ir.extractLsb' 6 3).toFin (ir.extractLsb' 0 6)) ∧
  ∀ (dr baseR : RegIdx) (off6 : BitVec 6) (s : State), ∃ t, exec (.ldr dr baseR off6) s = .next t ∧
    t.reg dr = (memRead (s.reg baseR + sextField off6) s).1 ∧ FlagOf (t.reg dr) t.cond ∧ RegsSameBut dr s t ∧
    t.pc = s.pc ∧ CellsSame (memRead (s.reg baseR + sextField off6) s).2 t ∧
    IoSame (memRead (s.reg baseR + sextField off6) s).2 t ∧ t.output = s.output ∧ StatusSame s t

/-- R124: LEA. The address itself goes into DR and sets the flag; no memory is read, not even KBSR. -/
def Obligations.LoadEffectiveAddress : Prop :=
  (∀ ir : Word, opcodeOf ir = 14#4 → decode ir = .lea (ir.extractLsb' 9 3).toFin (ir.extractLsb' 0 9)) ∧
  ∀ (dr : RegIdx) (off9 : BitVec 9) (s : State), ∃ t, exec (.lea dr off9) s = .next t ∧
    t.reg dr = s.pc + sextField off9 ∧ FlagOf (t.reg dr) t.cond ∧ RegsSameBut dr s t ∧ t.pc = s.pc ∧
    CellsSame s t ∧ IoSame s t ∧ StatusSame s t

/-- R125: ST. -/
def Obligations.Store : Prop :=
  (∀ ir : Word, opcodeOf ir = 3#4 → decode ir = .st (ir.extractLsb' 9 3).toFin (ir.extractLsb' 0 9)) ∧
  ∀ (sr : RegIdx) (off9 : BitVec 9) (s : State), ∃ t, exec (.st sr off9) s = .next t ∧
    t.cell (s.pc + sextField off9) = s.reg sr ∧ CellsSameBut (s.pc + sextField off9) s t ∧
    RegsSame s t ∧ t.cond = s.cond ∧ t.pc = s.pc ∧ IoSame s t ∧ StatusSame s t

/-- R126: STI. The pointer read may poll; the store does not. -/
def Obligations.StoreIndirect : Prop :=
  (∀ ir : Word, opcodeOf ir = 11#4 → decode ir = .sti (ir.extractLsb' 9 3).toFin (ir.extractLsb' 0 9)) ∧
  ∀ (sr : RegIdx) (off9 : BitVec 9) (s : State), ∃ t, exec (.sti sr off9) s = .next t ∧
    (let ptr := memRead (s.pc + sextField off9) s
     t.cell ptr.1 = s.reg sr ∧ CellsSameBut ptr.1 ptr.2 t ∧ IoSame ptr.2 t) ∧
    RegsSame s t ∧ t.cond = s.cond ∧ t.pc = s.pc ∧ t.output = s.output ∧ StatusSame s t

/-- R127: STR. -/
def Obligations.StoreBaseOffset : Prop :=
  (∀ ir : Word, opcodeOf ir = 7#4 →
    decode ir = .str (ir.extractLsb' 9 3).toFin (ir.extractLsb' 6 3).toFin (ir.extractLsb' 0 6)) ∧
  ∀ (sr baseR : RegIdx) (off6 : BitVec 6) (s : State), ∃ t, exec (.str sr baseR off6) s = .next t ∧
    t.cell (s.reg baseR + sextField off6) = s.reg sr ∧ CellsSameBut (s.reg baseR + sextField off6) s t ∧
    RegsSame s t ∧ t.cond = s.cond ∧ t.pc = s.pc ∧ IoSame s t ∧ StatusSame s t

/-! ### TRAP -/

/-- R142 with a character pending: GETC takes it into R0, zero-extended, with no echo, and changes nothing else.
The zero high byte is the spec's decision D12 (notes/assumptions/10.md). -/
def Obligations.GetcTakesCharacter : Prop :=
  (∀ ir : Word, opcodeOf ir = 15#4 → ir.extractLsb' 0 8 = 0x20#8 → decode ir = .trapGetc) ∧
  ∀ (s : State) (c : Byte) (rest : List Byte), s.input = c :: rest → ∃ t, exec .trapGetc s = .next t ∧
    t.reg 0 = c.setWidth 16 ∧ t.input = rest ∧ t.output = s.output ∧
    RegsSameBut 0 s t ∧ t.cond = s.cond ∧ t.pc = s.pc ∧ CellsSame s t ∧ StatusSame s t

/-- R145 with a character pending: IN writes the prompt, takes the character, echoes it and puts it into R0.
The prompt's bytes are open (D19), the echo and the zero high byte are the spec's decisions D20 and D12
(notes/assumptions/17.md, 18.md, 10.md). -/
def Obligations.InTakesCharacter : Prop :=
  (∀ ir : Word, opcodeOf ir = 15#4 → ir.extractLsb' 0 8 = 0x23#8 → decode ir = .trapIn) ∧
  ∀ (s : State) (c : Byte) (rest : List Byte), s.input = c :: rest → ∃ t, exec .trapIn s = .next t ∧
    t.reg 0 = c.setWidth 16 ∧ t.input = rest ∧ t.output = s.output ++ Config.inPrompt ++ [c] ∧
    RegsSameBut 0 s t ∧ t.cond = s.cond ∧ t.pc = s.pc ∧ CellsSame s t ∧ StatusSame s t

/-- R149, the beginning of the wait: with no character, GETC and IN are held, R0 unwritten, the PC already advanced;
IN's prompt has been written. The field `hold` is the model's (notes/assumptions/23.md). -/
def Obligations.EmptyInputHolds : Prop :=
  ∀ s : State, s.input = [] →
    (∃ t, exec .trapGetc s = .next t ∧ t.hold = some .getc ∧ t.output = s.output ∧ t.run = s.run ∧ RegsSame s t ∧
      t.cond = s.cond ∧ t.pc = s.pc ∧ CellsSame s t ∧ t.input = [] ∧ t.stopReq = s.stopReq ∧
      t.hostPlan = s.hostPlan) ∧
    (∃ t, exec .trapIn s = .next t ∧ t.hold = some .inChar ∧ t.output = s.output ++ Config.inPrompt ∧ t.run = s.run ∧
      RegsSame s t ∧ t.cond = s.cond ∧ t.pc = s.pc ∧ CellsSame s t ∧ t.input = [] ∧ t.stopReq = s.stopReq ∧
      t.hostPlan = s.hostPlan)

/-- R149, what lifts the hold of GETC and IN: a stop request (R0 unwritten, STOPPED) or else a character; with neither
the machine stays held. Fields `hold` and `hostPlan` are the model's (notes/assumptions/15.md, 23.md); that the stop
request is looked at before the character is the model's choice (notes/assumptions/14.md). The zero high byte of R0 and
IN's echo are the spec's decisions D12 and D20 (notes/assumptions/10.md, 18.md). -/
def Obligations.HoldIsLifted : Prop :=
  ∀ (s : State) (h : Hold), s.run = .running → s.hold = some h → h = .getc ∨ h = .inChar →
    ∃ t, step s = .next t ∧ t.pc = s.pc ∧ t.cond = s.cond ∧ CellsSame s t ∧ RegsSameBut 0 s t ∧
      ((hostTurn s).stopReq = true →
        t.run = .stopped ∧ t.hold = none ∧ RegsSame s t ∧ t.output = s.output ∧ t.input = (hostTurn s).input) ∧
      ((hostTurn s).stopReq = false → (hostTurn s).input = [] → t = hostTurn s) ∧
      (∀ c rest, (hostTurn s).stopReq = false → (hostTurn s).input = c :: rest →
        t.run = .running ∧ t.hold = none ∧ t.reg 0 = c.setWidth 16 ∧ t.input = rest ∧
        t.output = s.output ++ (if h = .inChar then [c] else []))

/-- R143: OUT writes the low byte of R0. -/
def Obligations.OutWritesLowByte : Prop :=
  (∀ ir : Word, opcodeOf ir = 15#4 → ir.extractLsb' 0 8 = 0x21#8 → decode ir = .trapOut) ∧
  ∀ s : State, ∃ t, exec .trapOut s = .next t ∧ t.output = s.output ++ [(s.reg 0).extractLsb' 0 8] ∧
    t.input = s.input ∧ RegsSame s t ∧ t.cond = s.cond ∧ t.pc = s.pc ∧ CellsSame s t ∧ StatusSame s t

/-- R144 for a string in memory: PUTS writes the low byte of each word from the address in R0 up to the first zero
word, which is not written; the address wraps; R0 and everything else stay. That only the low byte is written, that the
address wraps and that the scan never polls are the spec's decisions D11, D10 and D9 (notes/assumptions/9.md, 8.md,
7.md). -/
def Obligations.PutsWritesString : Prop :=
  (∀ ir : Word, opcodeOf ir = 15#4 → ir.extractLsb' 0 8 = 0x22#8 → decode ir = .trapPuts) ∧
  ∀ (s : State) (n : Nat), StringAt s (s.reg 0) n → ∃ t, exec .trapPuts s = .next t ∧
    t.output = s.output ++ (cellsFrom s (s.reg 0) n).map (fun w => w.extractLsb' 0 8) ∧
    t.input = s.input ∧ RegsSame s t ∧ t.cond = s.cond ∧ t.pc = s.pc ∧ CellsSame s t ∧ StatusSame s t

/-- R146 for a string in memory: PUTSP writes the low byte of each word and then its high byte if that is not
zero. The wrap and the raw scan are the spec's decisions D10 and D9 (notes/assumptions/8.md, 7.md). -/
def Obligations.PutspWritesPackedString : Prop :=
  (∀ ir : Word, opcodeOf ir = 15#4 → ir.extractLsb' 0 8 = 0x24#8 → decode ir = .trapPutsp) ∧
  ∀ (s : State) (n : Nat), StringAt s (s.reg 0) n → ∃ t, exec .trapPutsp s = .next t ∧
    t.output = s.output ++ (cellsFrom s (s.reg 0) n).flatMap (fun w =>
      if w.extractLsb' 8 8 = 0#8 then [w.extractLsb' 0 8] else [w.extractLsb' 0 8, w.extractLsb' 8 8]) ∧
    t.input = s.input ∧ RegsSame s t ∧ t.cond = s.cond ∧ t.pc = s.pc ∧ CellsSame s t ∧ StatusSame s t

/-- Every PUTS and PUTSP ends where memory has a zero word, and where it has none the machine is held inside the scan; a
held scan over such memory is never done, and the stop request does not lift it (R144, R146, R173, U6). That the scan
wraps and reads stored cells alone are the spec's decisions D10 and D9 (notes/assumptions/8.md, 7.md), that the stop is
not sampled inside it D16 (notes/assumptions/14.md). The field `hold` and one round of memory as the step of a held scan
are the model's choice (notes/assumptions/23.md, 24.md), and so is the host's turn before a step
(notes/assumptions/15.md). The last clause, a held scan over memory with a zero word, is in no run. -/
def Obligations.ScanWithoutZeroNeverEnds : Prop :=
  (∀ s : State, (∃ a, s.cell a = 0) →
    (∃ n, StringAt s (s.reg 0) n) ∧
    (∃ t, exec .trapPuts s = .next t ∧ RegsSame s t ∧ CellsSame s t ∧ t.pc = s.pc ∧ t.cond = s.cond ∧
      t.input = s.input ∧ StatusSame s t) ∧
    ∃ t, exec .trapPutsp s = .next t ∧ RegsSame s t ∧ CellsSame s t ∧ t.pc = s.pc ∧ t.cond = s.cond ∧
      t.input = s.input ∧ StatusSame s t) ∧
  (∀ s : State, (∀ a, s.cell a ≠ 0) →
    (∃ t, exec .trapPuts s = .next t ∧ t.hold = some (.scan .puts (s.reg 0)) ∧ t.run = s.run ∧ RegsSame s t ∧
      CellsSame s t ∧ t.pc = s.pc ∧ t.cond = s.cond ∧ t.input = s.input ∧ t.stopReq = s.stopReq ∧
      t.hostPlan = s.hostPlan ∧ ∃ bs, bs ≠ [] ∧ t.output = s.output ++ bs) ∧
    ∃ t, exec .trapPutsp s = .next t ∧ t.hold = some (.scan .putsp (s.reg 0)) ∧ t.run = s.run ∧ RegsSame s t ∧
      CellsSame s t ∧ t.pc = s.pc ∧ t.cond = s.cond ∧ t.input = s.input ∧ t.stopReq = s.stopReq ∧
      t.hostPlan = s.hostPlan ∧ ∃ bs, bs ≠ [] ∧ t.output = s.output ++ bs) ∧
  ∀ (s : State) (kind : ScanKind) (a : Word), s.run = .running → s.hold = some (.scan kind a) →
    ∃ t, step s = .next t ∧ t.run = .running ∧ RegsSame s t ∧ CellsSame s t ∧ t.pc = s.pc ∧ t.cond = s.cond ∧
      t.input = (hostTurn s).input ∧ t.stopReq = (hostTurn s).stopReq ∧ t.hostPlan = (hostTurn s).hostPlan ∧
      ((∀ b, s.cell b ≠ 0) → t.hold = some (.scan kind a) ∧ ∃ bs, bs ≠ [] ∧ t.output = s.output ++ bs) ∧
      ((∃ b, s.cell b = 0) → t.hold = none ∧ ∃ n, StringAt s a n ∧
        t.output = s.output ++ (cellsFrom s a n).flatMap (scanBytes kind))

/-- R147: HALT writes the notice and ends the run; the PC, registers, flag and memory keep their values. The notice's
bytes are open (D19, notes/assumptions/17.md): the statement holds for every text. That the step a terminal machine does
not have (R27) is the fault `noStep` is the model's choice (notes/assumptions/13.md). -/
def Obligations.HaltEndsRun : Prop :=
  (∀ ir : Word, opcodeOf ir = 15#4 → ir.extractLsb' 0 8 = 0x25#8 → decode ir = .trapHalt) ∧
  (∀ s : State, ∃ t, exec .trapHalt s = .next t ∧ t.run = .halted ∧ t.output = s.output ++ Config.haltNotice ∧
    t.input = s.input ∧ RegsSame s t ∧ t.cond = s.cond ∧ t.pc = s.pc ∧ CellsSame s t ∧ t.hold = s.hold ∧
    t.stopReq = s.stopReq ∧ t.hostPlan = s.hostPlan ∧ step t = .fault (.noStep .halted))

/-- R150: a TRAP with any other vector does nothing, which is the value `noop` of UNDEFINED_TRAP; under `fatal` it would
be the fatal abort. The value is the spec's decision D5 (notes/assumptions/3.md). -/
def Obligations.UndefinedVectorIsNoOp : Prop :=
  (∀ ir : Word, opcodeOf ir = 15#4 → (ir.extractLsb' 0 8 < 0x20#8 ∨ 0x25#8 < ir.extractLsb' 0 8) →
    decode ir = .trap (ir.extractLsb' 0 8)) ∧
  (∀ (v : BitVec 8) (s : State), v < 0x20#8 ∨ 0x25#8 < v → exec (.trap v) s = .next s) ∧
  Config.undefinedTrap = .noop ∧
  ∀ s : State, undefinedVector .noop s = s ∧ undefinedVector .fatal s = raiseIllegalOpcode s

/-- R141: TRAP dispatches on its vector, and whatever the vector, it changes neither the PC nor R7 nor any register but
R0, nor the flag, nor memory. That TRAP leaves R7 alone and that an undefined vector does not abort are the spec's
decisions D13 and D5 (notes/assumptions/11.md, 3.md). The first clause, the generic `trap` on a vector with a row of its
own, which no word decodes to, is the model's choice (notes/assumptions/29.md). -/
def Obligations.TrapDispatch : Prop :=
  (∀ s : State, exec (.trap 0x20#8) s = exec .trapGetc s ∧ exec (.trap 0x21#8) s = exec .trapOut s ∧
    exec (.trap 0x22#8) s = exec .trapPuts s ∧ exec (.trap 0x23#8) s = exec .trapIn s ∧
    exec (.trap 0x24#8) s = exec .trapPutsp s ∧ exec (.trap 0x25#8) s = exec .trapHalt s) ∧
  ∀ (w : Word) (s : State), opcodeOf w = 15#4 → exec (decode w) s = exec (.trap (w.extractLsb' 0 8)) s ∧
    ∃ t, exec (decode w) s = .next t ∧ RegsSameBut 0 s t ∧ t.pc = s.pc ∧ t.cond = s.cond ∧ CellsSame s t ∧
      (t.reg 0 ≠ s.reg 0 → w.extractLsb' 0 8 = 0x20#8 ∨ w.extractLsb' 0 8 = 0x23#8) ∧
      (t.run = .aborted → s.run = .aborted)

/-! ### Reserved opcodes and the fatal abort -/

/-- R161 and R162: RTI and RES, in every word of their opcodes, set the run state to ABORTED and change nothing else. -/
def Obligations.ReservedOpcodesAbort : Prop :=
  (∀ ir : Word, opcodeOf ir = 8#4 → decode ir = .rti) ∧ (∀ ir : Word, opcodeOf ir = 13#4 → decode ir = .res) ∧
  ∀ (i : Instr) (s : State), i = .rti ∨ i = .res → ∃ t, exec i s = .next t ∧ t.run = .aborted ∧
    RegsSame s t ∧ t.cond = s.cond ∧ t.pc = s.pc ∧ CellsSame s t ∧ IoSame s t ∧ t.hold = s.hold ∧
    t.stopReq = s.stopReq ∧ t.hostPlan = s.hostPlan

/-- R170, R176: the abort is precise. After a step that fetched a reserved opcode the PC is one past it, the run is
ABORTED, and beside the fetch's own effect nothing has changed; no further step is taken. That the abort records nothing
else is the spec's decision D22 (notes/assumptions/20.md). The host's turn before the step and the fault `noStep` for the
step that is not taken are the model's choice (notes/assumptions/15.md, 13.md). -/
def Obligations.AbortIsPrecise : Prop :=
  ∀ s : State, s.Fetches → fetchedInstr s = .rti ∨ fetchedInstr s = .res →
    ∃ t, step s = .next t ∧ t.run = .aborted ∧ t.pc = s.pc + 1 ∧ RegsSame s t ∧ t.cond = s.cond ∧
      t.output = s.output ∧ CellsSame (memRead s.pc (hostTurn s)).2 t ∧ t.input = (memRead s.pc (hostTurn s)).2.input ∧
      step t = .fault (.noStep .aborted)

/-! ### The controller -/

/-- R23: the step. In a terminal run state there is none; at a step boundary a stop request ends the run with nothing
fetched; otherwise the word at the PC is fetched, the PC advances, and the decoded instruction runs. `hostTurn` is what
the host does first, from the model's own plan (notes/assumptions/15.md); that the missing step of a terminal run state
is the fault `noStep` is the model's choice too (notes/assumptions/13.md). That the stop request is sampled first is the
spec's decision D16 (notes/assumptions/14.md), that the fetch is intercepted D8 (notes/assumptions/6.md). -/
def Obligations.StepRunsDecodedInstruction : Prop :=
  (∀ s : State, s.run ≠ .running → step s = .fault (.noStep s.run)) ∧
  (∀ s : State, s.run = .running → s.hold = none → (hostTurn s).stopReq = true →
    step s = .next ((hostTurn s).setRun .stopped)) ∧
  ∀ (s : State) (i : Instr), s.Fetches → decode (memRead s.pc (hostTurn s)).1 = i →
    step s = exec i ((memRead s.pc (hostTurn s)).2.setPc (s.pc + 1))

/-- R54: the fetch is an intercepted read. A fetch from KBSR executes the word 0x8000, which aborts, when a character is
pending, and the word 0x0000, a no-op, when none is; a store is seen by the very next fetch of any other address. That
the fetch is intercepted, the value exactly 0x8000 and the zero high byte of KBDR are the spec's decisions D8, D21 and
D12 (notes/assumptions/6.md, 19.md, 10.md). The host's turn before the step is the model's (notes/assumptions/15.md). -/
def Obligations.FetchIsIntercepted : Prop :=
  (∀ s : State, s.Fetches → s.pc = Config.kbsr →
    ∃ t, step s = .next t ∧ t.pc = 0xFE01#16 ∧
      ((hostTurn s).input = [] → t.run = .running ∧ t.cell Config.kbsr = 0x0000#16) ∧
      (∀ c rest, (hostTurn s).input = c :: rest → t.run = .aborted ∧ t.cell Config.kbsr = 0x8000#16 ∧
        t.cell Config.kbdr = c.setWidth 16 ∧ t.input = rest)) ∧
  ∀ (a v : Word) (s : State), a ≠ Config.kbsr → ((memWrite a v s).setPc a).Fetches →
    fetchedInstr ((memWrite a v s).setPc a) = decode v

/-- R203: at an unloaded cell (0x0000) that is not KBSR the machine moves on to the next address, wrapping from 0xFFFF
to 0x0000, and changes nothing else but what the host's turn, the model's own (notes/assumptions/15.md), has changed. -/
def Obligations.UnloadedMemorySlides : Prop :=
  ∀ s : State, s.Fetches → s.pc ≠ Config.kbsr → s.cell s.pc = 0 →
    ∃ t, step s = .next t ∧ t.pc.toNat = (s.pc.toNat + 1) % 65536 ∧ t = (hostTurn s).setPc t.pc

/-! ### Whole-machine rules -/

/-- R25 and R26: exactly seven instructions (nine rows) write the flag, each from its destination's new value.
The last clause speaks of the instruction fetched in the step, whatever the host does before it. -/
def Obligations.OnlySevenInstructionsWriteFlag : Prop :=
  (∀ (i : Instr) (s : State) (dr : RegIdx), flagDest i = some dr →
    ∃ t, exec i s = .next t ∧ FlagOf (t.reg dr) t.cond) ∧
  (∀ (i : Instr) (s : State), flagDest i = none → ∃ t, exec i s = .next t ∧ t.cond = s.cond) ∧
  ∀ s t : State, step s = .next t → t.cond ≠ s.cond → s.Fetches ∧ flagDest (fetchedInstr s) ≠ none

/-- R27: the run leaves RUNNING for HALTED only by TRAP HALT, for ABORTED only by RTI or RES, for STOPPED only by the
stop request; and from a terminal state there is no step. The four values are the spec's reading D15
(notes/assumptions/13.md); that no TRAP aborts holds under UNDEFINED_TRAP = noop, its decision D5
(notes/assumptions/3.md). The fault `noStep` and the host's turn are the model's choice (notes/assumptions/13.md,
15.md). -/
def Obligations.RunStateTransitions : Prop :=
  ∀ s t : State, step s = .next t →
    s.run = .running ∧
    (t.run = .halted → s.Fetches ∧ fetchedInstr s = .trapHalt) ∧
    (t.run = .aborted → s.Fetches ∧ (fetchedInstr s = .rti ∨ fetchedInstr s = .res)) ∧
    (t.run = .stopped → (hostTurn s).stopReq = true) ∧
    (t.run ≠ .running → step t = .fault (.noStep t.run))

/-- R20, R21: an instruction writes no general register but its DR, R7 for JSR and JSRR, R0 for GETC and IN. -/
def Obligations.RegistersWritten : Prop :=
  ∀ (i : Instr) (s : State), i.wellFormed = true → ∃ t, exec i s = .next t ∧
    ∀ r, t.reg r ≠ s.reg r → r ∈ writtenRegs i

/-- R22, R110: after the fetch only BR, JMP, JSR and JSRR write the PC. -/
def Obligations.OnlyControlTransferWritesPc : Prop :=
  ∀ (i : Instr) (s : State), writesPc i = false → ∃ t, exec i s = .next t ∧ t.pc = s.pc

/-- R30, R45 to R47: an instruction changes no cell but the one it stores to, and KBSR and KBDR when it reads KBSR. -/
def Obligations.CellsWritten : Prop :=
  ∀ (i : Instr) (s : State), ∃ t, exec i s = .next t ∧
    ∀ a, t.cell a ≠ s.cell a →
      storeAddress i s = some a ∨ ((a = Config.kbsr ∨ a = Config.kbdr) ∧ Polls i s)

/-- R31: an instruction takes at most one character, from the head of the input source, and only GETC, IN and a read of
KBSR take one. One queue for all three is the spec's decision D17 (notes/assumptions/15.md). -/
def Obligations.InputTakenFromHead : Prop :=
  ∀ (i : Instr) (s : State), i.wellFormed = true → ∃ t, exec i s = .next t ∧
    (t.input = s.input ∨
      ((∃ c, s.input = c :: t.input) ∧ (i = .trapGetc ∨ i = .trapIn ∨ Polls i s)))

/-- R32, R49: the output sink is append-only, and only OUT, PUTS, PUTSP, IN and HALT append; the sink as a list is the
spec's decision D18 (notes/assumptions/16.md). -/
def Obligations.OutputOnlyGrows : Prop :=
  (∀ s t : State, step s = .next t → ∃ bs, t.output = s.output ++ bs) ∧
  ∀ (i : Instr) (s : State), i.wellFormed = true → ∃ t, exec i s = .next t ∧
    (t.output = s.output ∨ writesOutput i = true)

/-- R32: nothing in the machine reads the output sink: two states that differ in it alone step to states that differ in
it alone. -/
def Obligations.OutputIsUnobservable : Prop :=
  ∀ (s t : State) (o : List Byte), step s = .next t →
    ∃ t', step { s with output := o } = .next t' ∧ { t' with output := [] } = { t with output := [] }

/-- R33: the core neither sets nor clears the stop request; over a step it changes only as the host's turn has it, and
once set it stays set (the spec's decision D16, notes/assumptions/14.md; the host's turn is the model's,
notes/assumptions/15.md). -/
def Obligations.StopRequestIsTheHosts : Prop :=
  (∀ (i : Instr) (s : State), ∃ t, exec i s = .next t ∧ t.stopReq = s.stopReq) ∧
  ∀ s t : State, step s = .next t → t.stopReq = (hostTurn s).stopReq ∧ (s.stopReq = true → t.stopReq = true)

/-- R31, R33, R181: the host's turn appends the bytes it supplies to the tail of the input source in order, sets the
stop request if asked and never clears it, uses up one entry of the plan and changes nothing else; past the end of the
plan it changes nothing at all. The plan is the model's own field (notes/assumptions/15.md). -/
def Obligations.HostTurnSuppliesAndStops : Prop :=
  (∀ s : State, s.hostPlan = [] → hostTurn s = s) ∧
  (∀ (s : State) (acts : List HostAction) (plan : List (List HostAction)), s.hostPlan = acts :: plan →
    (hostTurn s).input = s.input ++ suppliedBytes acts ∧
    ((hostTurn s).stopReq = true ↔ s.stopReq = true ∨ HostAction.requestStop ∈ acts) ∧
    (hostTurn s).hostPlan = plan ∧ RegsSame s (hostTurn s) ∧ (hostTurn s).pc = s.pc ∧
    (hostTurn s).cond = s.cond ∧ CellsSame s (hostTurn s) ∧ (hostTurn s).output = s.output ∧
    (hostTurn s).run = s.run ∧ (hostTurn s).hold = s.hold) ∧
  ∀ s t : State, step s = .next t → t.hostPlan = s.hostPlan.tail

/-! ### Invariant, reset, load -/

/-- Every step keeps the invariant, from every state that has it: memory stays in its canonical form, and only a
running machine is held inside an instruction. The form of memory and the field `hold` are the model's
(notes/assumptions/25.md, 23.md). -/
def Obligations.StepKeepsInvariant : Prop := ∀ s t : State, s.Inv → step s = .next t → t.Inv

/-- The invariant holds after reset, whatever the open values are, and after the host's load. The form of memory and
the field `hold` are the model's (notes/assumptions/25.md, 23.md). -/
def Obligations.InvariantAfterReset : Prop :=
  State.reset.Inv ∧ ∀ (gpr : Vector Word 8) (cond : Cond) (input : List Byte) (images : List Image),
    (hostLoad images (State.resetWith gpr cond input)).Inv

/-- R190 to R196: what reset leaves, for every value of what the spec leaves open (R191, R193; its decisions D6 and D7),
the PC whatever images are loaded, and that the first step fetches (R190, R199). The entry address is the spec's decision
D25, the two queues as lists D17 and D18 (notes/assumptions/22.md, 15.md, 16.md). That nothing is held and that the
host's plan is empty are the model's choice (notes/assumptions/23.md, 28.md), both fields being its own. -/
def Obligations.ResetState : Prop :=
  ∀ (gpr : Vector Word 8) (cond : Cond) (input : List Byte),
    (State.resetWith gpr cond input).pc = 0x3000#16 ∧
    (∀ images : List Image, (hostLoad images (State.resetWith gpr cond input)).pc = 0x3000#16) ∧
    (State.resetWith gpr cond input).run = .running ∧
    (∀ a, (State.resetWith gpr cond input).cell a = 0x0000#16) ∧ (State.resetWith gpr cond input).output = [] ∧
    (State.resetWith gpr cond input).stopReq = false ∧ (State.resetWith gpr cond input).input = input ∧
    (State.resetWith gpr cond input).cond = cond ∧
    (∀ r : RegIdx, (State.resetWith gpr cond input).reg r = gpr[r.val]) ∧
    (State.resetWith gpr cond input).hold = none ∧ (State.resetWith gpr cond input).hostPlan = [] ∧
    (State.resetWith gpr cond input).Fetches

/-- R197: after the load, word k of an image is at its origin + k, for as many words as fit below 65536; every cell the
last image does not cover is as the images before it left it, so a later image wins; a cell no image covers keeps its
reset value 0x0000. -/
def Obligations.HostLoadsImages : Prop :=
  (∀ (images : List Image) (img : Image) (s : State),
    (∀ k (h : k < img.words.length), img.origin.toNat + k < 65536 →
      (hostLoad (images ++ [img]) s).cell (img.origin + BitVec.ofNat 16 k) = img.words[k]) ∧
    (∀ a, ¬ img.Covers a → (hostLoad (images ++ [img]) s).cell a = (hostLoad images s).cell a)) ∧
  ∀ (images : List Image) (gpr : Vector Word 8) (cond : Cond) (input : List Byte) (a : Word),
    (∀ img ∈ images, ¬ img.Covers a) → (hostLoad images (State.resetWith gpr cond input)).cell a = 0x0000#16
end

