-- ==== Sys2Proof/Laws/Fields.lean ====
section
/-! SUPPORT. Reading a field back out of a word put together with `fieldAt`: the field itself where the places agree,
zero where they are apart. -/

namespace Sys2Proof

theorem getLsbD_fieldAt {n : Nat} (f : BitVec n) (lo k : Nat) :
    (fieldAt f lo).getLsbD k = (decide (k < 16) && (decide (lo ≤ k) && f.getLsbD (k - lo))) := by
  by_cases h : k < lo <;> by_cases h' : k < 16 <;>
    simp [fieldAt, BitVec.getLsbD_shiftLeft, BitVec.getLsbD_setWidth, h, h'] <;> omega

@[simp] theorem extractLsb'_or_word (lo n : Nat) (x y : Word) :
    (x ||| y).extractLsb' lo n = x.extractLsb' lo n ||| y.extractLsb' lo n := by
  apply BitVec.eq_of_getLsbD_eq
  intro i hi
  simp [hi]

theorem extractLsb'_fieldAt_same {n : Nat} (f : BitVec n) (lo : Nat) (h : lo + n ≤ 16) :
    (fieldAt f lo).extractLsb' lo n = f := by
  apply BitVec.eq_of_getLsbD_eq
  intro i hi
  simp only [BitVec.getLsbD_extractLsb', hi, getLsbD_fieldAt]
  simp
  omega

theorem extractLsb'_fieldAt_apart {n : Nat} (f : BitVec n) (lo start len : Nat)
    (h : start + len ≤ lo ∨ lo + n ≤ start) : (fieldAt f lo).extractLsb' start len = 0#len := by
  apply BitVec.eq_of_getLsbD_eq
  intro i hi
  simp only [BitVec.getLsbD_extractLsb', hi, getLsbD_fieldAt, BitVec.getLsbD_zero]
  rcases h with h | h
  · have : ¬ lo ≤ start + i := by omega
    simp [this]
  · rw [BitVec.getLsbD_of_ge f (start + i - lo) (by omega)]
    simp

theorem getLsbD_fieldAt_apart {n : Nat} (f : BitVec n) (lo k : Nat) (h : k < lo ∨ lo + n ≤ k) :
    (fieldAt f lo).getLsbD k = false := by
  rw [getLsbD_fieldAt]
  rcases h with h | h
  · simp [Nat.not_le.mpr h]
  · rw [BitVec.getLsbD_of_ge f (k - lo) (by omega)]
    simp

theorem getElem_fieldAt {n : Nat} (f : BitVec n) (lo k : Nat) (h : k < 16) :
    (fieldAt f lo)[k] = (decide (lo ≤ k) && f.getLsbD (k - lo)) := by
  rw [← BitVec.getLsbD_eq_getElem, getLsbD_fieldAt]
  simp [h]

@[simp] theorem toFin_regBits (r : RegIdx) : (regBits r).toFin = r := rfl

end Sys2Proof
end

