-- ==== Sys2Proof/Laws/Decode.lean ====
section
/-! SUPPORT. The decoder opcode by opcode, and the sixteen values an opcode can have. -/

namespace Sys2Proof

/-- The opcode is one of its sixteen values. -/
theorem opcodeOf_cases (w : Word) :
    opcodeOf w = 0x0#4 ∨ opcodeOf w = 0x1#4 ∨ opcodeOf w = 0x2#4 ∨ opcodeOf w = 0x3#4 ∨ opcodeOf w = 0x4#4 ∨
    opcodeOf w = 0x5#4 ∨ opcodeOf w = 0x6#4 ∨ opcodeOf w = 0x7#4 ∨ opcodeOf w = 0x8#4 ∨ opcodeOf w = 0x9#4 ∨
    opcodeOf w = 0xA#4 ∨ opcodeOf w = 0xB#4 ∨ opcodeOf w = 0xC#4 ∨ opcodeOf w = 0xD#4 ∨ opcodeOf w = 0xE#4 ∨
    opcodeOf w = 0xF#4 := by
  generalize opcodeOf w = o
  revert o
  decide

section
variable {w : Word}

theorem decode_br (h : opcodeOf w = 0x0#4) :
    decode w = .br (w.getLsbD 11) (w.getLsbD 10) (w.getLsbD 9) (lowField 9 w) := by unfold decode; rw [h]; rfl

theorem decode_addReg (h : opcodeOf w = 0x1#4) (h5 : w.getLsbD 5 = false) :
    decode w = .addReg (regField w 9) (regField w 6) (regField w 0) := by unfold decode; rw [h, h5]; rfl

theorem decode_addImm (h : opcodeOf w = 0x1#4) (h5 : w.getLsbD 5 = true) :
    decode w = .addImm (regField w 9) (regField w 6) (lowField 5 w) := by unfold decode; rw [h, h5]; rfl

theorem decode_ld (h : opcodeOf w = 0x2#4) : decode w = .ld (regField w 9) (lowField 9 w) := by
  unfold decode; rw [h]; rfl

theorem decode_st (h : opcodeOf w = 0x3#4) : decode w = .st (regField w 9) (lowField 9 w) := by
  unfold decode; rw [h]; rfl

theorem decode_jsr (h : opcodeOf w = 0x4#4) (h11 : w.getLsbD 11 = true) : decode w = .jsr (lowField 11 w) := by
  unfold decode; rw [h, h11]; rfl

theorem decode_jsrr (h : opcodeOf w = 0x4#4) (h11 : w.getLsbD 11 = false) : decode w = .jsrr (regField w 6) := by
  unfold decode; rw [h, h11]; rfl

theorem decode_andReg (h : opcodeOf w = 0x5#4) (h5 : w.getLsbD 5 = false) :
    decode w = .andReg (regField w 9) (regField w 6) (regField w 0) := by unfold decode; rw [h, h5]; rfl

theorem decode_andImm (h : opcodeOf w = 0x5#4) (h5 : w.getLsbD 5 = true) :
    decode w = .andImm (regField w 9) (regField w 6) (lowField 5 w) := by unfold decode; rw [h, h5]; rfl

theorem decode_ldr (h : opcodeOf w = 0x6#4) : decode w = .ldr (regField w 9) (regField w 6) (lowField 6 w) := by
  unfold decode; rw [h]; rfl

theorem decode_str (h : opcodeOf w = 0x7#4) : decode w = .str (regField w 9) (regField w 6) (lowField 6 w) := by
  unfold decode; rw [h]; rfl

theorem decode_rti (h : opcodeOf w = 0x8#4) : decode w = .rti := by unfold decode; rw [h]; rfl

theorem decode_not (h : opcodeOf w = 0x9#4) : decode w = .not (regField w 9) (regField w 6) := by
  unfold decode; rw [h]; rfl

theorem decode_ldi (h : opcodeOf w = 0xA#4) : decode w = .ldi (regField w 9) (lowField 9 w) := by
  unfold decode; rw [h]; rfl

theorem decode_sti (h : opcodeOf w = 0xB#4) : decode w = .sti (regField w 9) (lowField 9 w) := by
  unfold decode; rw [h]; rfl

theorem decode_jmp (h : opcodeOf w = 0xC#4) : decode w = .jmp (regField w 6) := by unfold decode; rw [h]; rfl

theorem decode_res (h : opcodeOf w = 0xD#4) : decode w = .res := by unfold decode; rw [h]; rfl

theorem decode_lea (h : opcodeOf w = 0xE#4) : decode w = .lea (regField w 9) (lowField 9 w) := by
  unfold decode; rw [h]; rfl

theorem decode_trap (h : opcodeOf w = 0xF#4) : decode w = decodeTrap (lowField 8 w) := by unfold decode; rw [h]; rfl

end

/-- Everything TRAP's dispatch can answer: the row of a defined vector, or the fallback row with an undefined one. -/
theorem decodeTrap_cases (v : BitVec 8) :
    (v = 0x20#8 ∧ decodeTrap v = .trapGetc) ∨ (v = 0x21#8 ∧ decodeTrap v = .trapOut) ∨
    (v = 0x22#8 ∧ decodeTrap v = .trapPuts) ∨ (v = 0x23#8 ∧ decodeTrap v = .trapIn) ∨
    (v = 0x24#8 ∧ decodeTrap v = .trapPutsp) ∨ (v = 0x25#8 ∧ decodeTrap v = .trapHalt) ∨
    (definedVector v = false ∧ decodeTrap v = .trap v) := by
  revert v
  decide

/-- A word's opcode is the one of the row it decodes to. -/
theorem opcodeOf_eq_row (w : Word) : opcodeOf w = opcodeOf (decode w).row.pattern := by
  rcases opcodeOf_cases w with h | h | h | h | h | h | h | h | h | h | h | h | h | h | h | h
  case inr.inl =>
    cases h5 : w.getLsbD 5
    · rw [decode_addReg h h5, h]; simp [Instr.row, opcodeOf]
    · rw [decode_addImm h h5, h]; simp [Instr.row, opcodeOf]
  case inr.inr.inr.inr.inl =>
    cases h11 : w.getLsbD 11
    · rw [decode_jsrr h h11, h]; simp [Instr.row, opcodeOf]
    · rw [decode_jsr h h11, h]; simp [Instr.row, opcodeOf]
  case inr.inr.inr.inr.inr.inl =>
    cases h5 : w.getLsbD 5
    · rw [decode_andReg h h5, h]; simp [Instr.row, opcodeOf]
    · rw [decode_andImm h h5, h]; simp [Instr.row, opcodeOf]
  case inr.inr.inr.inr.inr.inr.inr.inr.inr.inr.inr.inr.inr.inr.inr =>
    rw [decode_trap h, h]
    rcases decodeTrap_cases (lowField 8 w) with
      ⟨_, e⟩ | ⟨_, e⟩ | ⟨_, e⟩ | ⟨_, e⟩ | ⟨_, e⟩ | ⟨_, e⟩ | ⟨_, e⟩ <;> rw [e] <;>
      simp [Instr.row, opcodeOf]
  · rw [decode_br h, h]; simp [Instr.row, opcodeOf]
  · rw [decode_ld h, h]; simp [Instr.row, opcodeOf]
  · rw [decode_st h, h]; simp [Instr.row, opcodeOf]
  · rw [decode_ldr h, h]; simp [Instr.row, opcodeOf]
  · rw [decode_str h, h]; simp [Instr.row, opcodeOf]
  · rw [decode_rti h, h]; simp [Instr.row, opcodeOf]
  · rw [decode_not h, h]; simp [Instr.row, opcodeOf]
  · rw [decode_ldi h, h]; simp [Instr.row, opcodeOf]
  · rw [decode_sti h, h]; simp [Instr.row, opcodeOf]
  · rw [decode_jmp h, h]; simp [Instr.row, opcodeOf]
  · rw [decode_res h, h]; simp [Instr.row, opcodeOf]
  · rw [decode_lea h, h]; simp [Instr.row, opcodeOf]

end Sys2Proof
end

