-- ==== Sys2Proof/Laws/State.lean ====
section
/-! SUPPORT. What each update of the state does to each field: one lemma per field per update, so that no later proof
unfolds a record update. -/

namespace Sys2Proof.Machine

@[simp] theorem State.reg_setReg (s : State) (i j : RegIdx) (v : Word) :
    (s.setReg i v).reg j = if j = i then v else s.reg j := by
  simp only [State.reg, State.setReg, Vector.getElem_set, Fin.val_inj, eq_comm]

theorem State.reg_setReg_same (s : State) (i : RegIdx) (v : Word) : (s.setReg i v).reg i = v := by simp

theorem State.reg_setReg_ne (s : State) (i j : RegIdx) (v : Word) (h : j ≠ i) : (s.setReg i v).reg j = s.reg j := by
  simp [h]

/-! ### setReg -/

@[simp] theorem State.pc_setReg (s : State) (i : RegIdx) (v : Word) : (s.setReg i v).pc = s.pc := rfl
@[simp] theorem State.cond_setReg (s : State) (i : RegIdx) (v : Word) : (s.setReg i v).cond = s.cond := rfl
@[simp] theorem State.run_setReg (s : State) (i : RegIdx) (v : Word) : (s.setReg i v).run = s.run := rfl
@[simp] theorem State.mem_setReg (s : State) (i : RegIdx) (v : Word) : (s.setReg i v).mem = s.mem := rfl
@[simp] theorem State.input_setReg (s : State) (i : RegIdx) (v : Word) : (s.setReg i v).input = s.input := rfl
@[simp] theorem State.output_setReg (s : State) (i : RegIdx) (v : Word) : (s.setReg i v).output = s.output := rfl
@[simp] theorem State.stopReq_setReg (s : State) (i : RegIdx) (v : Word) : (s.setReg i v).stopReq = s.stopReq := rfl
@[simp] theorem State.hold_setReg (s : State) (i : RegIdx) (v : Word) : (s.setReg i v).hold = s.hold := rfl
@[simp] theorem State.hostPlan_setReg (s : State) (i : RegIdx) (v : Word) : (s.setReg i v).hostPlan = s.hostPlan := rfl
@[simp] theorem State.cell_setReg (s : State) (i : RegIdx) (v : Word) (a : Word) : (s.setReg i v).cell a = s.cell a := rfl

/-! ### setPc -/

@[simp] theorem State.regs_setPc (s : State) (t : Word) : (s.setPc t).regs = s.regs := rfl
@[simp] theorem State.pc_setPc (s : State) (t : Word) : (s.setPc t).pc = t := rfl
@[simp] theorem State.cond_setPc (s : State) (t : Word) : (s.setPc t).cond = s.cond := rfl
@[simp] theorem State.run_setPc (s : State) (t : Word) : (s.setPc t).run = s.run := rfl
@[simp] theorem State.mem_setPc (s : State) (t : Word) : (s.setPc t).mem = s.mem := rfl
@[simp] theorem State.input_setPc (s : State) (t : Word) : (s.setPc t).input = s.input := rfl
@[simp] theorem State.output_setPc (s : State) (t : Word) : (s.setPc t).output = s.output := rfl
@[simp] theorem State.stopReq_setPc (s : State) (t : Word) : (s.setPc t).stopReq = s.stopReq := rfl
@[simp] theorem State.hold_setPc (s : State) (t : Word) : (s.setPc t).hold = s.hold := rfl
@[simp] theorem State.hostPlan_setPc (s : State) (t : Word) : (s.setPc t).hostPlan = s.hostPlan := rfl
@[simp] theorem State.reg_setPc (s : State) (t : Word) (j : RegIdx) : (s.setPc t).reg j = s.reg j := rfl
@[simp] theorem State.cell_setPc (s : State) (t : Word) (a : Word) : (s.setPc t).cell a = s.cell a := rfl

/-! ### setCond -/

@[simp] theorem State.regs_setCond (s : State) (c : Cond) : (s.setCond c).regs = s.regs := rfl
@[simp] theorem State.pc_setCond (s : State) (c : Cond) : (s.setCond c).pc = s.pc := rfl
@[simp] theorem State.cond_setCond (s : State) (c : Cond) : (s.setCond c).cond = c := rfl
@[simp] theorem State.run_setCond (s : State) (c : Cond) : (s.setCond c).run = s.run := rfl
@[simp] theorem State.mem_setCond (s : State) (c : Cond) : (s.setCond c).mem = s.mem := rfl
@[simp] theorem State.input_setCond (s : State) (c : Cond) : (s.setCond c).input = s.input := rfl
@[simp] theorem State.output_setCond (s : State) (c : Cond) : (s.setCond c).output = s.output := rfl
@[simp] theorem State.stopReq_setCond (s : State) (c : Cond) : (s.setCond c).stopReq = s.stopReq := rfl
@[simp] theorem State.hold_setCond (s : State) (c : Cond) : (s.setCond c).hold = s.hold := rfl
@[simp] theorem State.hostPlan_setCond (s : State) (c : Cond) : (s.setCond c).hostPlan = s.hostPlan := rfl
@[simp] theorem State.reg_setCond (s : State) (c : Cond) (j : RegIdx) : (s.setCond c).reg j = s.reg j := rfl
@[simp] theorem State.cell_setCond (s : State) (c : Cond) (a : Word) : (s.setCond c).cell a = s.cell a := rfl

/-! ### setRun -/

@[simp] theorem State.regs_setRun (s : State) (r : RunState) : (s.setRun r).regs = s.regs := rfl
@[simp] theorem State.pc_setRun (s : State) (r : RunState) : (s.setRun r).pc = s.pc := rfl
@[simp] theorem State.cond_setRun (s : State) (r : RunState) : (s.setRun r).cond = s.cond := rfl
@[simp] theorem State.run_setRun (s : State) (r : RunState) : (s.setRun r).run = r := rfl
@[simp] theorem State.mem_setRun (s : State) (r : RunState) : (s.setRun r).mem = s.mem := rfl
@[simp] theorem State.input_setRun (s : State) (r : RunState) : (s.setRun r).input = s.input := rfl
@[simp] theorem State.output_setRun (s : State) (r : RunState) : (s.setRun r).output = s.output := rfl
@[simp] theorem State.stopReq_setRun (s : State) (r : RunState) : (s.setRun r).stopReq = s.stopReq := rfl
@[simp] theorem State.hold_setRun (s : State) (r : RunState) : (s.setRun r).hold = s.hold := rfl
@[simp] theorem State.hostPlan_setRun (s : State) (r : RunState) : (s.setRun r).hostPlan = s.hostPlan := rfl
@[simp] theorem State.reg_setRun (s : State) (r : RunState) (j : RegIdx) : (s.setRun r).reg j = s.reg j := rfl
@[simp] theorem State.cell_setRun (s : State) (r : RunState) (a : Word) : (s.setRun r).cell a = s.cell a := rfl

/-! ### setMem -/

@[simp] theorem State.regs_setMem (s : State) (m : Memory) : (s.setMem m).regs = s.regs := rfl
@[simp] theorem State.pc_setMem (s : State) (m : Memory) : (s.setMem m).pc = s.pc := rfl
@[simp] theorem State.cond_setMem (s : State) (m : Memory) : (s.setMem m).cond = s.cond := rfl
@[simp] theorem State.run_setMem (s : State) (m : Memory) : (s.setMem m).run = s.run := rfl
@[simp] theorem State.mem_setMem (s : State) (m : Memory) : (s.setMem m).mem = m := rfl
@[simp] theorem State.input_setMem (s : State) (m : Memory) : (s.setMem m).input = s.input := rfl
@[simp] theorem State.output_setMem (s : State) (m : Memory) : (s.setMem m).output = s.output := rfl
@[simp] theorem State.stopReq_setMem (s : State) (m : Memory) : (s.setMem m).stopReq = s.stopReq := rfl
@[simp] theorem State.hold_setMem (s : State) (m : Memory) : (s.setMem m).hold = s.hold := rfl
@[simp] theorem State.hostPlan_setMem (s : State) (m : Memory) : (s.setMem m).hostPlan = s.hostPlan := rfl
@[simp] theorem State.reg_setMem (s : State) (m : Memory) (j : RegIdx) : (s.setMem m).reg j = s.reg j := rfl

/-! ### setInput -/

@[simp] theorem State.regs_setInput (s : State) (q : List Byte) : (s.setInput q).regs = s.regs := rfl
@[simp] theorem State.pc_setInput (s : State) (q : List Byte) : (s.setInput q).pc = s.pc := rfl
@[simp] theorem State.cond_setInput (s : State) (q : List Byte) : (s.setInput q).cond = s.cond := rfl
@[simp] theorem State.run_setInput (s : State) (q : List Byte) : (s.setInput q).run = s.run := rfl
@[simp] theorem State.mem_setInput (s : State) (q : List Byte) : (s.setInput q).mem = s.mem := rfl
@[simp] theorem State.input_setInput (s : State) (q : List Byte) : (s.setInput q).input = q := rfl
@[simp] theorem State.output_setInput (s : State) (q : List Byte) : (s.setInput q).output = s.output := rfl
@[simp] theorem State.stopReq_setInput (s : State) (q : List Byte) : (s.setInput q).stopReq = s.stopReq := rfl
@[simp] theorem State.hold_setInput (s : State) (q : List Byte) : (s.setInput q).hold = s.hold := rfl
@[simp] theorem State.hostPlan_setInput (s : State) (q : List Byte) : (s.setInput q).hostPlan = s.hostPlan := rfl
@[simp] theorem State.reg_setInput (s : State) (q : List Byte) (j : RegIdx) : (s.setInput q).reg j = s.reg j := rfl
@[simp] theorem State.cell_setInput (s : State) (q : List Byte) (a : Word) : (s.setInput q).cell a = s.cell a := rfl

/-! ### setHold -/

@[simp] theorem State.regs_setHold (s : State) (h : Option Hold) : (s.setHold h).regs = s.regs := rfl
@[simp] theorem State.pc_setHold (s : State) (h : Option Hold) : (s.setHold h).pc = s.pc := rfl
@[simp] theorem State.cond_setHold (s : State) (h : Option Hold) : (s.setHold h).cond = s.cond := rfl
@[simp] theorem State.run_setHold (s : State) (h : Option Hold) : (s.setHold h).run = s.run := rfl
@[simp] theorem State.mem_setHold (s : State) (h : Option Hold) : (s.setHold h).mem = s.mem := rfl
@[simp] theorem State.input_setHold (s : State) (h : Option Hold) : (s.setHold h).input = s.input := rfl
@[simp] theorem State.output_setHold (s : State) (h : Option Hold) : (s.setHold h).output = s.output := rfl
@[simp] theorem State.stopReq_setHold (s : State) (h : Option Hold) : (s.setHold h).stopReq = s.stopReq := rfl
@[simp] theorem State.hold_setHold (s : State) (h : Option Hold) : (s.setHold h).hold = h := rfl
@[simp] theorem State.hostPlan_setHold (s : State) (h : Option Hold) : (s.setHold h).hostPlan = s.hostPlan := rfl
@[simp] theorem State.reg_setHold (s : State) (h : Option Hold) (j : RegIdx) : (s.setHold h).reg j = s.reg j := rfl
@[simp] theorem State.cell_setHold (s : State) (h : Option Hold) (a : Word) : (s.setHold h).cell a = s.cell a := rfl

/-! ### putChars -/

@[simp] theorem State.regs_putChars (s : State) (bs : List Byte) : (putChars bs s).regs = s.regs := rfl
@[simp] theorem State.pc_putChars (s : State) (bs : List Byte) : (putChars bs s).pc = s.pc := rfl
@[simp] theorem State.cond_putChars (s : State) (bs : List Byte) : (putChars bs s).cond = s.cond := rfl
@[simp] theorem State.run_putChars (s : State) (bs : List Byte) : (putChars bs s).run = s.run := rfl
@[simp] theorem State.mem_putChars (s : State) (bs : List Byte) : (putChars bs s).mem = s.mem := rfl
@[simp] theorem State.input_putChars (s : State) (bs : List Byte) : (putChars bs s).input = s.input := rfl
@[simp] theorem State.output_putChars (s : State) (bs : List Byte) : (putChars bs s).output = s.output ++ bs := rfl
@[simp] theorem State.stopReq_putChars (s : State) (bs : List Byte) : (putChars bs s).stopReq = s.stopReq := rfl
@[simp] theorem State.hold_putChars (s : State) (bs : List Byte) : (putChars bs s).hold = s.hold := rfl
@[simp] theorem State.hostPlan_putChars (s : State) (bs : List Byte) : (putChars bs s).hostPlan = s.hostPlan := rfl
@[simp] theorem State.reg_putChars (s : State) (bs : List Byte) (j : RegIdx) : (putChars bs s).reg j = s.reg j := rfl
@[simp] theorem State.cell_putChars (s : State) (bs : List Byte) (a : Word) : (putChars bs s).cell a = s.cell a := rfl

end Sys2Proof.Machine
end

