-- ==== Sys2Proof/Laws/Memory.lean ====
section
/-! SUPPORT. The laws of memory: a read after a write (20_memory.md R52), and the canonical form, which every memory
operation keeps. -/

namespace Sys2Proof.Machine

theorem Memory.lookup_insert (m : List (Nat × Word)) (a b : Nat) (v : Word) :
    Memory.lookup (Memory.insert m a v) b = if b = a then v else Memory.lookup m b := by
  induction m with
  | nil => simp [Memory.insert, Memory.lookup, eq_comm]
  | cons c rest ih =>
    obtain ⟨k, w⟩ := c
    simp only [Memory.insert]
    split
    · simp only [Memory.lookup, eq_comm]
    · split
      · rename_i h
        subst h
        simp only [Memory.lookup]
        by_cases hb : a = b <;> simp [hb, eq_comm]
      · simp only [Memory.lookup, ih]
        by_cases hk : k = b
        · simp only [hk, ↓reduceIte]
          split
          · rename_i hne hb
            exact absurd (hk.trans hb).symm hne
          · rfl
        · simp [hk]

theorem Memory.lookup_filter (m : List (Nat × Word)) (a b : Nat) :
    Memory.lookup (List.filter (fun c => c.1 != a) m) b = if b = a then Memory.unlisted else Memory.lookup m b := by
  induction m with
  | nil => simp [Memory.lookup]
  | cons c rest ih =>
    obtain ⟨k, w⟩ := c
    by_cases hk : k = a
    · subst hk
      simp only [List.filter_cons, bne_self_eq_false, Bool.false_eq_true, ↓reduceIte, ih, Memory.lookup]
      by_cases hb : b = k <;> simp [hb, eq_comm]
    · simp only [List.filter_cons, bne_iff_ne, ne_eq, hk, not_false_eq_true, ↓reduceIte, Memory.lookup, ih]
      by_cases hkb : k = b
      · subst hkb
        simp [hk]
      · simp [hkb]

/-- A read after a write: the cell written holds the value, every other cell is as before. -/
@[simp] theorem Memory.read_write (m : Memory) (a b v : Word) :
    Memory.read (Memory.write m a v) b = if b = a then v else Memory.read m b := by
  unfold Memory.read Memory.write
  split
  · rename_i h
    simp only [Memory.lookup_filter, BitVec.toNat_inj, h]
  · simp only [Memory.lookup_insert, BitVec.toNat_inj]

@[simp] theorem Memory.read_nil (a : Word) : Memory.read [] a = 0#16 := rfl

@[simp] theorem State.cell_setCell (s : State) (a b v : Word) :
    (s.setCell a v).cell b = if b = a then v else s.cell b := Memory.read_write s.mem a b v

@[simp] theorem State.reg_setCell (s : State) (a v : Word) (j : RegIdx) : (s.setCell a v).reg j = s.reg j := rfl
@[simp] theorem State.regs_setCell (s : State) (a v : Word) : (s.setCell a v).regs = s.regs := rfl
@[simp] theorem State.pc_setCell (s : State) (a v : Word) : (s.setCell a v).pc = s.pc := rfl
@[simp] theorem State.cond_setCell (s : State) (a v : Word) : (s.setCell a v).cond = s.cond := rfl
@[simp] theorem State.run_setCell (s : State) (a v : Word) : (s.setCell a v).run = s.run := rfl
@[simp] theorem State.mem_setCell (s : State) (a v : Word) : (s.setCell a v).mem = Memory.write s.mem a v := rfl
@[simp] theorem State.input_setCell (s : State) (a v : Word) : (s.setCell a v).input = s.input := rfl
@[simp] theorem State.output_setCell (s : State) (a v : Word) : (s.setCell a v).output = s.output := rfl
@[simp] theorem State.stopReq_setCell (s : State) (a v : Word) : (s.setCell a v).stopReq = s.stopReq := rfl
@[simp] theorem State.hold_setCell (s : State) (a v : Word) : (s.setCell a v).hold = s.hold := rfl
@[simp] theorem State.hostPlan_setCell (s : State) (a v : Word) : (s.setCell a v).hostPlan = s.hostPlan := rfl

/-! ### The canonical form -/

theorem Memory.wf_cons (k : Nat) (v : Word) (rest : List (Nat × Word)) :
    Memory.wf ((k, v) :: rest) = true ↔
      k < 65536 ∧ v ≠ Memory.unlisted ∧ (∀ c ∈ rest, k < c.1) ∧ Memory.wf rest = true := by
  simp [Memory.wf, and_assoc]

theorem Memory.mem_insert (m : List (Nat × Word)) (a : Nat) (v : Word) :
    ∀ c ∈ Memory.insert m a v, c = (a, v) ∨ c ∈ m := by
  induction m with
  | nil => simp [Memory.insert]
  | cons d rest ih =>
    obtain ⟨k, w⟩ := d
    intro c hc
    simp only [Memory.insert] at hc
    split at hc
    · simpa using hc
    · split at hc
      · rcases List.mem_cons.mp hc with rfl | hc
        · exact .inl rfl
        · exact .inr (List.mem_cons_of_mem _ hc)
      · rcases List.mem_cons.mp hc with rfl | hc
        · exact .inr (List.mem_cons_self)
        · exact (ih c hc).imp_right (List.mem_cons_of_mem _)

theorem Memory.wf_insert (m : List (Nat × Word)) (a : Nat) (v : Word) (ha : a < 65536) (hv : v ≠ Memory.unlisted)
    (h : Memory.wf m = true) : Memory.wf (Memory.insert m a v) = true := by
  induction m with
  | nil => simp [Memory.insert, Memory.wf, ha, hv]
  | cons d rest ih =>
    obtain ⟨k, w⟩ := d
    obtain ⟨hk, hw, hall, hrest⟩ := (Memory.wf_cons k w rest).mp h
    simp only [Memory.insert]
    split
    · rename_i hak
      refine (Memory.wf_cons ..).mpr ⟨ha, hv, ?_, h⟩
      intro c hc
      rcases List.mem_cons.mp hc with rfl | hc
      · exact hak
      · exact Nat.lt_trans hak (hall c hc)
    · split
      · rename_i hak
        subst hak
        exact (Memory.wf_cons ..).mpr ⟨ha, hv, hall, hrest⟩
      · rename_i hlt hne
        refine (Memory.wf_cons ..).mpr ⟨hk, hw, ?_, ih hrest⟩
        intro c hc
        rcases Memory.mem_insert rest a v c hc with rfl | hc
        · exact Nat.lt_of_le_of_ne (Nat.le_of_not_lt hlt) (Ne.symm hne)
        · exact hall c hc

theorem Memory.wf_filter (m : List (Nat × Word)) (p : Nat × Word → Bool) (h : Memory.wf m = true) :
    Memory.wf (m.filter p) = true := by
  induction m with
  | nil => rfl
  | cons d rest ih =>
    obtain ⟨k, w⟩ := d
    obtain ⟨hk, hw, hall, hrest⟩ := (Memory.wf_cons k w rest).mp h
    rw [List.filter_cons]
    split
    · exact (Memory.wf_cons ..).mpr ⟨hk, hw, fun c hc => hall c (List.mem_filter.mp hc).1, ih hrest⟩
    · exact ih hrest

/-- Every write keeps the canonical form. -/
theorem Memory.wf_write (m : Memory) (a v : Word) (h : Memory.wf m = true) : Memory.wf (Memory.write m a v) = true := by
  unfold Memory.write
  split
  · exact Memory.wf_filter m _ h
  · exact Memory.wf_insert m _ v a.isLt ‹_› h

/-- Below the addresses it lists, a memory reads as unlisted. -/
theorem Memory.lookup_of_lt (m : List (Nat × Word)) (a : Nat) (h : ∀ c ∈ m, a < c.1) :
    Memory.lookup m a = Memory.unlisted := by
  induction m with
  | nil => rfl
  | cons d rest ih =>
    obtain ⟨k, w⟩ := d
    have hk : a < k := h (k, w) List.mem_cons_self
    simp only [Memory.lookup, Nat.ne_of_gt hk, ↓reduceIte]
    exact ih fun c hc => h c (List.mem_cons_of_mem _ hc)

/-- The form is canonical: two memories in it that read alike at every address are the same list. -/
theorem Memory.eq_of_read_eq (m n : Memory) (hm : Memory.wf m = true) (hn : Memory.wf n = true)
    (h : ∀ a, Memory.lookup m a = Memory.lookup n a) : m = n := by
  induction m generalizing n with
  | nil =>
    match n with
    | [] => rfl
    | (k, v) :: rest =>
      have := h k
      simp only [Memory.lookup, ↓reduceIte] at this
      exact absurd this.symm ((Memory.wf_cons k v rest).mp hn).2.1
  | cons d rest ih =>
    obtain ⟨k, v⟩ := d
    obtain ⟨hk, hv, hall, hrest⟩ := (Memory.wf_cons k v rest).mp hm
    match n with
    | [] =>
      have := h k
      simp only [Memory.lookup, ↓reduceIte] at this
      exact absurd this hv
    | (l, w) :: rest' =>
      obtain ⟨hl, hw, hall', hrest'⟩ := (Memory.wf_cons l w rest').mp hn
      have hkl : k = l := by
        rcases Nat.lt_trichotomy k l with hlt | rfl | hlt
        · have := h k
          rw [Memory.lookup_of_lt ((l, w) :: rest') k] at this
          · simp only [Memory.lookup, ↓reduceIte] at this
            exact absurd this hv
          · intro c hc
            rcases List.mem_cons.mp hc with rfl | hc
            · exact hlt
            · exact Nat.lt_trans hlt (hall' c hc)
        · rfl
        · have := h l
          rw [Memory.lookup_of_lt ((k, v) :: rest) l] at this
          · simp only [Memory.lookup, ↓reduceIte] at this
            exact absurd this.symm hw
          · intro c hc
            rcases List.mem_cons.mp hc with rfl | hc
            · exact hlt
            · exact Nat.lt_trans hlt (hall c hc)
      subst hkl
      have hvw : v = w := by simpa [Memory.lookup] using h k
      subst hvw
      congr 1
      refine ih rest' hrest hrest' fun a => ?_
      have ha := h a
      by_cases hka : k = a
      · subst hka
        rw [Memory.lookup_of_lt rest k hall, Memory.lookup_of_lt rest' k hall']
      · simpa [Memory.lookup, hka] using ha

/-- Memory at reset is in its canonical form. -/
theorem State.wf_reset : Memory.wf State.reset.mem = true := rfl

end Sys2Proof.Machine
end

