-- ==== Sys2Proof/Laws/Ops.lean ====
section
/-! SUPPORT. What each shared operation of Machine/Ops.lean can do: one spec lemma each, with its frame. -/

namespace Sys2Proof.Machine

/-! ### The device bridge -/

theorem keyAvailable_iff (s : State) : keyAvailable s = true ↔ s.input ≠ [] := by
  simp [keyAvailable]

theorem readChar_of_nil (s : State) (h : s.input = []) : readChar s = none := by simp [readChar, h]

theorem readChar_of_cons (s : State) (c : Byte) (rest : List Byte) (h : s.input = c :: rest) :
    readChar s = some (c, s.setInput rest) := by simp [readChar, h]

/-- `ReadChar` has a byte exactly when `KeyAvailable` says so. -/
theorem readChar_isSome (s : State) : (readChar s).isSome = keyAvailable s := by
  cases h : s.input <;> simp [readChar, keyAvailable, h]

theorem pollKeyboard_of_nil (s : State) (h : s.input = []) : pollKeyboard s = s.setCell Config.kbsr 0x0000#16 := by
  simp [pollKeyboard, readChar_of_nil s h]

theorem pollKeyboard_of_cons (s : State) (c : Byte) (rest : List Byte) (h : s.input = c :: rest) :
    pollKeyboard s = ((s.setInput rest).setCell Config.kbsr 0x8000#16).setCell Config.kbdr (zext16 c) := by
  simp [pollKeyboard, readChar_of_cons s c rest h]

/-! ### `MemRead` -/

theorem memRead_of_ne (a : Word) (s : State) (h : a ≠ Config.kbsr) : memRead a s = (s.cell a, s) := by
  simp [memRead, h]

theorem memRead_kbsr_of_nil (s : State) (h : s.input = []) :
    memRead Config.kbsr s = (0x0000#16, s.setCell Config.kbsr 0x0000#16) := by
  simp [memRead, pollKeyboard_of_nil s h]

theorem kbsr_ne_kbdr : Config.kbsr ≠ Config.kbdr := by decide

theorem memRead_kbsr_of_cons (s : State) (c : Byte) (rest : List Byte) (h : s.input = c :: rest) :
    memRead Config.kbsr s =
      (0x8000#16, ((s.setInput rest).setCell Config.kbsr 0x8000#16).setCell Config.kbdr (zext16 c)) := by
  simp [memRead, pollKeyboard_of_cons s c rest h, kbsr_ne_kbdr]

/-- Everything `MemRead` can do. -/
theorem memRead_cases (a : Word) (s : State) :
    (a ≠ Config.kbsr ∧ memRead a s = (s.cell a, s)) ∨
    (a = Config.kbsr ∧ s.input = [] ∧ memRead a s = (0x0000#16, s.setCell Config.kbsr 0x0000#16)) ∨
    (∃ c rest, a = Config.kbsr ∧ s.input = c :: rest ∧
      memRead a s = (0x8000#16, ((s.setInput rest).setCell Config.kbsr 0x8000#16).setCell Config.kbdr (zext16 c))) := by
  by_cases ha : a = Config.kbsr
  · subst ha
    cases h : s.input with
    | nil => exact .inr (.inl ⟨rfl, rfl, memRead_kbsr_of_nil s h⟩)
    | cons c rest => exact .inr (.inr ⟨c, rest, rfl, rfl, memRead_kbsr_of_cons s c rest h⟩)
  · exact .inl ⟨ha, memRead_of_ne a s ha⟩

@[simp] theorem memRead_regs (a : Word) (s : State) : (memRead a s).2.regs = s.regs := by
  rcases memRead_cases a s with ⟨_, h⟩ | ⟨_, _, h⟩ | ⟨_, _, _, _, h⟩ <;> simp [h]

@[simp] theorem memRead_pc (a : Word) (s : State) : (memRead a s).2.pc = s.pc := by
  rcases memRead_cases a s with ⟨_, h⟩ | ⟨_, _, h⟩ | ⟨_, _, _, _, h⟩ <;> simp [h]

@[simp] theorem memRead_cond (a : Word) (s : State) : (memRead a s).2.cond = s.cond := by
  rcases memRead_cases a s with ⟨_, h⟩ | ⟨_, _, h⟩ | ⟨_, _, _, _, h⟩ <;> simp [h]

@[simp] theorem memRead_run (a : Word) (s : State) : (memRead a s).2.run = s.run := by
  rcases memRead_cases a s with ⟨_, h⟩ | ⟨_, _, h⟩ | ⟨_, _, _, _, h⟩ <;> simp [h]

@[simp] theorem memRead_output (a : Word) (s : State) : (memRead a s).2.output = s.output := by
  rcases memRead_cases a s with ⟨_, h⟩ | ⟨_, _, h⟩ | ⟨_, _, _, _, h⟩ <;> simp [h]

@[simp] theorem memRead_stopReq (a : Word) (s : State) : (memRead a s).2.stopReq = s.stopReq := by
  rcases memRead_cases a s with ⟨_, h⟩ | ⟨_, _, h⟩ | ⟨_, _, _, _, h⟩ <;> simp [h]

@[simp] theorem memRead_hold (a : Word) (s : State) : (memRead a s).2.hold = s.hold := by
  rcases memRead_cases a s with ⟨_, h⟩ | ⟨_, _, h⟩ | ⟨_, _, _, _, h⟩ <;> simp [h]

@[simp] theorem memRead_hostPlan (a : Word) (s : State) : (memRead a s).2.hostPlan = s.hostPlan := by
  rcases memRead_cases a s with ⟨_, h⟩ | ⟨_, _, h⟩ | ⟨_, _, _, _, h⟩ <;> simp [h]

@[simp] theorem memRead_reg (a : Word) (s : State) (j : RegIdx) : (memRead a s).2.reg j = s.reg j := by
  simp [State.reg]

theorem memRead_wf (a : Word) (s : State) (h : Memory.wf s.mem = true) : Memory.wf (memRead a s).2.mem = true := by
  rcases memRead_cases a s with ⟨_, e⟩ | ⟨_, _, e⟩ | ⟨_, _, _, _, e⟩ <;> simp [e, h, Memory.wf_write]

/-- A read changes no cell but KBSR and KBDR, and those only when it is KBSR that is read. -/
theorem memRead_cell_of_ne (a b : Word) (s : State) (h : b ≠ Config.kbsr) (h' : b ≠ Config.kbdr) :
    (memRead a s).2.cell b = s.cell b := by
  rcases memRead_cases a s with ⟨_, e⟩ | ⟨_, _, e⟩ | ⟨_, _, _, _, e⟩ <;> simp [e, h, h']

/-- A read takes at most one character, from the head of the input source. -/
theorem memRead_input (a : Word) (s : State) :
    (memRead a s).2.input = s.input ∨ (a = Config.kbsr ∧ ∃ c, s.input = c :: (memRead a s).2.input) := by
  rcases memRead_cases a s with ⟨_, e⟩ | ⟨_, _, e⟩ | ⟨c, _, ha, hi, e⟩
  · simp [e]
  · simp [e]
  · exact .inr ⟨ha, c, by simp [e, hi]⟩

/-! ### `MemWrite`, `ScanRead`, `PutChar` -/

@[simp] theorem memWrite_eq (a v : Word) (s : State) : memWrite a v s = s.setCell a v := rfl

@[simp] theorem scanRead_raw (a : Word) (s : State) : scanRead false a s = (s.cell a, s) := rfl

@[simp] theorem scanRead_intercepted (a : Word) (s : State) : scanRead true a s = memRead a s := rfl

@[simp] theorem putChars_nil (s : State) : putChars [] s = s := by simp [putChars]

theorem putChars_putChars (xs ys : List Byte) (s : State) : putChars ys (putChars xs s) = putChars (xs ++ ys) s := by
  simp [putChars]

/-! ### The exception, the stop, the fetch -/

@[simp] theorem raiseIllegalOpcode_eq (s : State) : raiseIllegalOpcode s = s.setRun .aborted := rfl

@[simp] theorem stopRun_eq (s : State) : stopRun s = s.setRun .stopped := rfl

theorem fetch_eq (s : State) : fetch s = ((memRead s.pc s).1, (memRead s.pc s).2.setPc (s.pc + 1)) := by
  simp [fetch]

/-! ### The host's turn -/

@[simp] theorem suppliedBytes_nil : suppliedBytes [] = [] := rfl

@[simp] theorem suppliedBytes_supply (b : Byte) (acts : List HostAction) :
    suppliedBytes (.supply b :: acts) = b :: suppliedBytes acts := rfl

@[simp] theorem suppliedBytes_requestStop (acts : List HostAction) :
    suppliedBytes (.requestStop :: acts) = suppliedBytes acts := rfl

/-- Everything the host's actions do: the bytes supplied go to the tail of the input source, and the stop request is set
if it was or is asked for. -/
theorem hostActs_spec (acts : List HostAction) (s : State) :
    acts.foldl hostAct s =
      { s with input := s.input ++ suppliedBytes acts,
               stopReq := s.stopReq || decide (HostAction.requestStop ∈ acts) } := by
  induction acts generalizing s with
  | nil => simp
  | cons x rest ih => cases x <;> simp [ih, hostAct, State.setInput]

/-- Everything the host's turn can do. -/
theorem hostTurn_spec (s : State) :
    ∃ bs req, hostTurn s =
      { s with input := s.input ++ bs, stopReq := s.stopReq || req, hostPlan := s.hostPlan.tail } := by
  cases h : s.hostPlan with
  | nil => exact ⟨[], false, by cases s; simp_all [hostTurn]⟩
  | cons acts rest => exact ⟨_, _, by simp only [hostTurn, h, hostActs_spec, List.tail_cons]; rfl⟩

@[simp] theorem hostTurn_regs (s : State) : (hostTurn s).regs = s.regs := by
  obtain ⟨_, _, h⟩ := hostTurn_spec s; simp [h]

@[simp] theorem hostTurn_pc (s : State) : (hostTurn s).pc = s.pc := by
  obtain ⟨_, _, h⟩ := hostTurn_spec s; simp [h]

@[simp] theorem hostTurn_cond (s : State) : (hostTurn s).cond = s.cond := by
  obtain ⟨_, _, h⟩ := hostTurn_spec s; simp [h]

@[simp] theorem hostTurn_run (s : State) : (hostTurn s).run = s.run := by
  obtain ⟨_, _, h⟩ := hostTurn_spec s; simp [h]

@[simp] theorem hostTurn_mem (s : State) : (hostTurn s).mem = s.mem := by
  obtain ⟨_, _, h⟩ := hostTurn_spec s; simp [h]

@[simp] theorem hostTurn_output (s : State) : (hostTurn s).output = s.output := by
  obtain ⟨_, _, h⟩ := hostTurn_spec s; simp [h]

@[simp] theorem hostTurn_hold (s : State) : (hostTurn s).hold = s.hold := by
  obtain ⟨_, _, h⟩ := hostTurn_spec s; simp [h]

@[simp] theorem hostTurn_hostPlan (s : State) : (hostTurn s).hostPlan = s.hostPlan.tail := by
  obtain ⟨_, _, h⟩ := hostTurn_spec s; simp [h]

@[simp] theorem hostTurn_reg (s : State) (j : RegIdx) : (hostTurn s).reg j = s.reg j := by simp [State.reg]

@[simp] theorem hostTurn_cell (s : State) (a : Word) : (hostTurn s).cell a = s.cell a := by simp [State.cell]

/-- A host with nothing left in its plan does nothing. -/
theorem hostTurn_of_nil (s : State) (h : s.hostPlan = []) : hostTurn s = s := by simp [hostTurn, h]

end Sys2Proof.Machine
end

