-- ==== Sys2Proof/Laws/Flags.lean ====
section
/-! SUPPORT. The condition flag: what `condOf` and `setcc` answer, what `writeResult` changes, when BR is taken. -/

namespace Sys2Proof.Machine

/-- The flag `condOf` gives a value is the one R25 gives it. -/
theorem flagOf_condOf (v : Word) : FlagOf v (condOf v) := by
  refine ⟨fun h => by simp [condOf, h], fun h => ?_, fun h h' => by simp_all [condOf]⟩
  have hv : v ≠ 0 := by rintro rfl; simp at h
  simp_all [condOf]

/-- BR is taken exactly when the mask bit of the current flag is 1 (R111). -/
theorem branchTaken_iff (n z p : Bool) (c : Cond) :
    branchTaken n z p c = true ↔
      (n = true ∧ c = .negative) ∨ (z = true ∧ c = .zero) ∨ (p = true ∧ c = .positive) := by
  cases n <;> cases z <;> cases p <;> cases c <;> decide

@[simp] theorem writeResult_reg (dr : RegIdx) (v : Word) (s : State) (j : RegIdx) :
    (writeResult dr v s).reg j = if j = dr then v else s.reg j := by
  simp [writeResult, setcc]

@[simp] theorem writeResult_cond (dr : RegIdx) (v : Word) (s : State) : (writeResult dr v s).cond = condOf v := by
  simp [writeResult, setcc]

@[simp] theorem writeResult_pc (dr : RegIdx) (v : Word) (s : State) : (writeResult dr v s).pc = s.pc := rfl
@[simp] theorem writeResult_run (dr : RegIdx) (v : Word) (s : State) : (writeResult dr v s).run = s.run := rfl
@[simp] theorem writeResult_mem (dr : RegIdx) (v : Word) (s : State) : (writeResult dr v s).mem = s.mem := rfl
@[simp] theorem writeResult_cell (dr : RegIdx) (v a : Word) (s : State) : (writeResult dr v s).cell a = s.cell a := rfl
@[simp] theorem writeResult_input (dr : RegIdx) (v : Word) (s : State) : (writeResult dr v s).input = s.input := rfl
@[simp] theorem writeResult_output (dr : RegIdx) (v : Word) (s : State) : (writeResult dr v s).output = s.output := rfl
@[simp] theorem writeResult_stopReq (dr : RegIdx) (v : Word) (s : State) :
    (writeResult dr v s).stopReq = s.stopReq := rfl
@[simp] theorem writeResult_hold (dr : RegIdx) (v : Word) (s : State) : (writeResult dr v s).hold = s.hold := rfl
@[simp] theorem writeResult_hostPlan (dr : RegIdx) (v : Word) (s : State) :
    (writeResult dr v s).hostPlan = s.hostPlan := rfl

end Sys2Proof.Machine
end

