-- ==== Sys2Proof/Laws/PerInstr.lean ====
section
/-! SUPPORT. Laws of every instruction as syntax, one lemma per constructor. Family EncodeOpcode: the top four bits of
an instruction's word are the opcode number 30_encoding.md R82 gives it. -/

namespace Sys2Proof.Laws.EncodeOpcode

/-- The opcode number of R82, from the table's row of the instruction. -/
def Statement (i : Instr) : Prop := opcodeOf (encode i) = opcodeOf i.row.pattern

theorem br (n z p : Bool) (off9 : BitVec 9) : Statement (.br n z p off9) := by
  simp (disch := decide) [Statement, encode, Instr.row, opcodeOf, extractLsb'_fieldAt_same, extractLsb'_fieldAt_apart]

theorem addReg (dr sr1 sr2 : RegIdx) : Statement (.addReg dr sr1 sr2) := by
  simp (disch := decide) [Statement, encode, Instr.row, opcodeOf, extractLsb'_fieldAt_same, extractLsb'_fieldAt_apart]

theorem addImm (dr sr1 : RegIdx) (imm5 : BitVec 5) : Statement (.addImm dr sr1 imm5) := by
  simp (disch := decide) [Statement, encode, Instr.row, opcodeOf, extractLsb'_fieldAt_same, extractLsb'_fieldAt_apart]

theorem ld (dr : RegIdx) (off9 : BitVec 9) : Statement (.ld dr off9) := by
  simp (disch := decide) [Statement, encode, Instr.row, opcodeOf, extractLsb'_fieldAt_same, extractLsb'_fieldAt_apart]

theorem st (sr : RegIdx) (off9 : BitVec 9) : Statement (.st sr off9) := by
  simp (disch := decide) [Statement, encode, Instr.row, opcodeOf, extractLsb'_fieldAt_same, extractLsb'_fieldAt_apart]

theorem jsr (off11 : BitVec 11) : Statement (.jsr off11) := by
  simp (disch := decide) [Statement, encode, Instr.row, opcodeOf, extractLsb'_fieldAt_same, extractLsb'_fieldAt_apart]

theorem jsrr (baseR : RegIdx) : Statement (.jsrr baseR) := by
  simp (disch := decide) [Statement, encode, Instr.row, opcodeOf, extractLsb'_fieldAt_same, extractLsb'_fieldAt_apart]

theorem andReg (dr sr1 sr2 : RegIdx) : Statement (.andReg dr sr1 sr2) := by
  simp (disch := decide) [Statement, encode, Instr.row, opcodeOf, extractLsb'_fieldAt_same, extractLsb'_fieldAt_apart]

theorem andImm (dr sr1 : RegIdx) (imm5 : BitVec 5) : Statement (.andImm dr sr1 imm5) := by
  simp (disch := decide) [Statement, encode, Instr.row, opcodeOf, extractLsb'_fieldAt_same, extractLsb'_fieldAt_apart]

theorem ldr (dr baseR : RegIdx) (off6 : BitVec 6) : Statement (.ldr dr baseR off6) := by
  simp (disch := decide) [Statement, encode, Instr.row, opcodeOf, extractLsb'_fieldAt_same, extractLsb'_fieldAt_apart]

theorem str (sr baseR : RegIdx) (off6 : BitVec 6) : Statement (.str sr baseR off6) := by
  simp (disch := decide) [Statement, encode, Instr.row, opcodeOf, extractLsb'_fieldAt_same, extractLsb'_fieldAt_apart]

theorem rti  : Statement (.rti) := by
  simp (disch := decide) [Statement, encode, Instr.row, opcodeOf, extractLsb'_fieldAt_same]

theorem not (dr sr : RegIdx) : Statement (.not dr sr) := by
  simp (disch := decide) [Statement, encode, Instr.row, opcodeOf, extractLsb'_fieldAt_same, extractLsb'_fieldAt_apart]

theorem ldi (dr : RegIdx) (off9 : BitVec 9) : Statement (.ldi dr off9) := by
  simp (disch := decide) [Statement, encode, Instr.row, opcodeOf, extractLsb'_fieldAt_same, extractLsb'_fieldAt_apart]

theorem sti (sr : RegIdx) (off9 : BitVec 9) : Statement (.sti sr off9) := by
  simp (disch := decide) [Statement, encode, Instr.row, opcodeOf, extractLsb'_fieldAt_same, extractLsb'_fieldAt_apart]

theorem jmp (baseR : RegIdx) : Statement (.jmp baseR) := by
  simp (disch := decide) [Statement, encode, Instr.row, opcodeOf, extractLsb'_fieldAt_same, extractLsb'_fieldAt_apart]

theorem res  : Statement (.res) := by
  simp (disch := decide) [Statement, encode, Instr.row, opcodeOf, extractLsb'_fieldAt_same]

theorem lea (dr : RegIdx) (off9 : BitVec 9) : Statement (.lea dr off9) := by
  simp (disch := decide) [Statement, encode, Instr.row, opcodeOf, extractLsb'_fieldAt_same, extractLsb'_fieldAt_apart]

theorem trapGetc  : Statement (.trapGetc) := by
  simp (disch := decide) [Statement, encode, Instr.row, opcodeOf, extractLsb'_fieldAt_same, extractLsb'_fieldAt_apart]

theorem trapOut  : Statement (.trapOut) := by
  simp (disch := decide) [Statement, encode, Instr.row, opcodeOf, extractLsb'_fieldAt_same, extractLsb'_fieldAt_apart]

theorem trapPuts  : Statement (.trapPuts) := by
  simp (disch := decide) [Statement, encode, Instr.row, opcodeOf, extractLsb'_fieldAt_same, extractLsb'_fieldAt_apart]

theorem trapIn  : Statement (.trapIn) := by
  simp (disch := decide) [Statement, encode, Instr.row, opcodeOf, extractLsb'_fieldAt_same, extractLsb'_fieldAt_apart]

theorem trapPutsp  : Statement (.trapPutsp) := by
  simp (disch := decide) [Statement, encode, Instr.row, opcodeOf, extractLsb'_fieldAt_same, extractLsb'_fieldAt_apart]

theorem trapHalt  : Statement (.trapHalt) := by
  simp (disch := decide) [Statement, encode, Instr.row, opcodeOf, extractLsb'_fieldAt_same, extractLsb'_fieldAt_apart]

theorem trap (vect8 : BitVec 8) : Statement (.trap vect8) := by
  simp (disch := decide) [Statement, encode, Instr.row, opcodeOf, extractLsb'_fieldAt_same, extractLsb'_fieldAt_apart]

end Sys2Proof.Laws.EncodeOpcode
end

