-- ==== Sys2Proof/Laws/Routines.lean ====
section
/-! SUPPORT. The trap routines: what a scan does with and without a zero word in reach, what stays unchanged, and what
going on with a held instruction can do. -/

namespace Sys2Proof.Machine

/-! ### The scans -/

/-- The bytes a scan puts out for a list of words. -/
def scanOutput (kind : ScanKind) (ws : List Word) : List Byte := ws.flatMap (scanBytes kind)

theorem cellsFrom_succ (s : State) (a : Word) (n : Nat) :
    cellsFrom s a (n + 1) = s.cell a :: cellsFrom s (a + 1) n := by
  simp only [cellsFrom, List.range_succ_eq_map, List.map_cons, List.map_map, List.cons.injEq]
  refine ⟨by simp, List.map_congr_left fun k _ => ?_⟩
  simp only [Function.comp, Nat.succ_eq_add_one, BitVec.ofNat_add]
  congr 1
  ac_rfl

@[simp] theorem cellsFrom_putChars (s : State) (bs : List Byte) (a : Word) (n : Nat) :
    cellsFrom (putChars bs s) a n = cellsFrom s a n := rfl

/-- A raw scan that meets its zero word after `m` words puts those words out and is done. -/
theorem scanLoop_string (kind : ScanKind) (m n : Nat) (a : Word) (s : State) (hmn : m < n)
    (hne : ∀ k, k < m → s.cell (a + BitVec.ofNat 16 k) ≠ 0) (hz : s.cell (a + BitVec.ofNat 16 m) = 0) :
    scanLoop false kind n a s = (none, putChars (scanOutput kind (cellsFrom s a m)) s) := by
  induction m generalizing n a s with
  | zero =>
    obtain ⟨n, rfl⟩ : ∃ k, n = k + 1 := ⟨n - 1, by omega⟩
    have hz' : s.cell a = 0 := by simpa using hz
    simp [scanLoop, hz', scanOutput, cellsFrom]
  | succ m ih =>
    obtain ⟨n, rfl⟩ : ∃ k, n = k + 1 := ⟨n - 1, by omega⟩
    have h0 : s.cell a ≠ 0 := by simpa using hne 0 (by omega)
    have shift : ∀ k, a + 1 + BitVec.ofNat 16 k = a + BitVec.ofNat 16 (k + 1) := by
      intro k; rw [BitVec.ofNat_add]; ac_rfl
    have := ih n (a + 1) (putChars (scanBytes kind (s.cell a)) s) (by omega)
      (fun k hk => by rw [State.cell_putChars, shift]; exact hne (k + 1) (by omega))
      (by rw [State.cell_putChars, shift]; exact hz)
    simp only [scanLoop, scanRead_raw, h0, ↓reduceIte, this, cellsFrom_putChars, putChars_putChars]
    simp [scanOutput, cellsFrom_succ]

/-- A raw scan over memory with no zero word is not done after any number of words. -/
theorem scanLoop_nonzero (kind : ScanKind) (n : Nat) (a : Word) (s : State) (hne : ∀ b, s.cell b ≠ 0) :
    scanLoop false kind n a s =
      (some (a + BitVec.ofNat 16 n), putChars (scanOutput kind (cellsFrom s a n)) s) := by
  induction n generalizing a s with
  | zero => simp [scanLoop, scanOutput, cellsFrom]
  | succ n ih =>
    have := ih (a + 1) (putChars (scanBytes kind (s.cell a)) s) (by simpa using hne)
    simp only [scanLoop, scanRead_raw, hne a, ↓reduceIte, this, cellsFrom_putChars, putChars_putChars]
    refine Prod.ext ?_ ?_
    · simp only [Option.some.injEq, BitVec.ofNat_add]
      ac_rfl
    · simp [scanOutput, cellsFrom_succ]

/-- In memory with a zero word somewhere, every address has a string of fewer than 65536 words from it. -/
theorem stringAt_of_zero (s : State) (a b : Word) (hb : s.cell b = 0) : ∃ n, StringAt s a n := by
  have hex : ∃ n, s.cell (a + BitVec.ofNat 16 n) = 0 :=
    ⟨(b - a).toNat, by
      rw [BitVec.ofNat_toNat, BitVec.setWidth_eq, BitVec.add_comm, BitVec.sub_add_cancel]; exact hb⟩
  classical
  have hmin : ∀ k, k < Nat.find hex → s.cell (a + BitVec.ofNat 16 k) ≠ 0 := fun k hk => Nat.find_min hex hk
  refine ⟨Nat.find hex, Nat.lt_of_le_of_lt ?_ (b - a).isLt, hmin, Nat.find_spec hex⟩
  refine Nat.find_min' hex ?_
  rw [BitVec.ofNat_toNat, BitVec.setWidth_eq, BitVec.add_comm, BitVec.sub_add_cancel]
  exact hb

/-- A raw scan from a string ends with the string's words put out. -/
theorem scanFrom_string (kind : ScanKind) (a : Word) (n : Nat) (s : State) (h : StringAt s a n) :
    scanFrom false kind a s = putChars (scanOutput kind (cellsFrom s a n)) s := by
  simp [scanFrom, scanBound, scanLoop_string kind n 65536 a s h.1 h.2.1 h.2.2]

/-- A raw scan over memory with no zero word leaves the machine held inside it, one round further. -/
theorem scanFrom_nonzero (kind : ScanKind) (a : Word) (s : State) (h : ∀ b, s.cell b ≠ 0) :
    scanFrom false kind a s =
      (putChars (scanOutput kind (cellsFrom s a 65536)) s).setHold (some (.scan kind a)) := by
  have : scanBound false s = 65536 := rfl
  simp [scanFrom, this, scanLoop_nonzero kind 65536 a s h]

/-- Everything a raw scan can do: it puts bytes out, and is either done or held. -/
theorem scanFrom_raw_cases (kind : ScanKind) (a : Word) (s : State) :
    ∃ bs, scanFrom false kind a s = putChars bs s ∨
      scanFrom false kind a s = (putChars bs s).setHold (some (.scan kind a)) := by
  by_cases h : ∃ b, s.cell b = 0
  · obtain ⟨b, hb⟩ := h
    obtain ⟨n, hn⟩ := stringAt_of_zero s a b hb
    exact ⟨_, .inl (scanFrom_string kind a n s hn)⟩
  · exact ⟨_, .inr (scanFrom_nonzero kind a s fun b hb => h ⟨b, hb⟩)⟩

theorem putString_eq (kind : ScanKind) (s : State) : putString kind s = scanFrom false kind (s.reg 0) s := rfl

/-- Everything PUTS and PUTSP can do. -/
theorem putString_cases (kind : ScanKind) (s : State) :
    ∃ bs, putString kind s = putChars bs s ∨
      putString kind s = (putChars bs s).setHold (some (.scan kind (s.reg 0))) :=
  scanFrom_raw_cases kind (s.reg 0) s

/-! ### GETC and IN -/

/-- Everything the reading half of GETC can do. -/
theorem getcTake_cases (s : State) :
    (s.input = [] ∧ getcTake s = s.setHold (some .getc)) ∨
    (∃ c rest, s.input = c :: rest ∧ getcTake s = (s.setInput rest).setReg 0 (zext16 c)) := by
  cases h : s.input with
  | nil => exact .inl ⟨rfl, by simp [getcTake, readChar_of_nil s h]⟩
  | cons c rest => exact .inr ⟨c, rest, rfl, by simp [getcTake, readChar_of_cons s c rest h]⟩

/-- Everything the reading half of IN can do. -/
theorem inTake_cases (s : State) :
    (s.input = [] ∧ inTake s = s.setHold (some .inChar)) ∨
    (∃ c rest, s.input = c :: rest ∧ inTake s = (putChars [c] (s.setInput rest)).setReg 0 (zext16 c)) := by
  cases h : s.input with
  | nil => exact .inl ⟨rfl, by simp [inTake, readChar_of_nil s h]⟩
  | cons c rest => exact .inr ⟨c, rest, rfl, by simp [inTake, readChar_of_cons s c rest h]⟩

/-! ### Undefined vectors -/

@[simp] theorem undefinedVector_noop (s : State) : undefinedVector .noop s = s := rfl

@[simp] theorem undefinedVector_fatal (s : State) : undefinedVector .fatal s = s.setRun .aborted := rfl

/-! ### What no routine changes -/

theorem resumeHold_pc (h : Hold) (s : State) : (resumeHold h s).pc = s.pc := by
  cases h with
  | getc =>
    simp only [resumeHold]
    split
    · rfl
    · rcases getcTake_cases (s.setHold none) with ⟨_, e⟩ | ⟨_, _, _, e⟩ <;> simp [e]
  | inChar =>
    simp only [resumeHold]
    split
    · rfl
    · rcases inTake_cases (s.setHold none) with ⟨_, e⟩ | ⟨_, _, _, e⟩ <;> simp [e]
  | scan kind a =>
    obtain ⟨bs, e | e⟩ := scanFrom_raw_cases kind a (s.setHold none) <;> simp [resumeHold, Config.trapScanIntercepted, e]

/-- Everything going on with a held instruction can do to the fields no routine reads: memory, the flag, the stop
request and the host's plan stay, and the run state stays or becomes STOPPED. -/
theorem resumeHold_frame (h : Hold) (s : State) :
    (resumeHold h s).mem = s.mem ∧ (resumeHold h s).cond = s.cond ∧ (resumeHold h s).stopReq = s.stopReq ∧
    (resumeHold h s).hostPlan = s.hostPlan ∧
    ((resumeHold h s).run = s.run ∨
      (s.stopReq = true ∧ (resumeHold h s).run = .stopped ∧ (resumeHold h s).hold = none)) := by
  cases h with
  | getc =>
    simp only [resumeHold]
    split
    · rename_i hs; simp [hs]
    · rcases getcTake_cases (s.setHold none) with ⟨_, e⟩ | ⟨_, _, _, e⟩ <;> simp [e]
  | inChar =>
    simp only [resumeHold]
    split
    · rename_i hs; simp [hs]
    · rcases inTake_cases (s.setHold none) with ⟨_, e⟩ | ⟨_, _, _, e⟩ <;> simp [e]
  | scan kind a =>
    obtain ⟨bs, e | e⟩ := scanFrom_raw_cases kind a (s.setHold none) <;> simp [resumeHold, Config.trapScanIntercepted, e]

end Sys2Proof.Machine
end

