-- ==== Sys2Proof/Laws/Step.lean ====
section
/-! SUPPORT. What one step can do, said once: the inversion of `step`, the outcome of `exec`, and the placed word that
`step` fetches next. -/

namespace Sys2Proof.Machine

/-- Every instruction of the opcode table answers a next state, from every state. -/
theorem exec_total (i : Instr) (s : State) : ∃ t, exec i s = .next t := by
  cases i <;> exact ⟨_, rfl⟩

/-- In a terminal run state there is no step (R23, R27). -/
theorem step_of_terminal (s : State) (h : s.run ≠ .running) : step s = .fault (.noStep s.run) := by
  cases hr : s.run <;> simp_all [step, controllerStep]

/-- A held machine goes on with the instruction it is held inside. -/
theorem step_of_held (s : State) (h : Hold) (hr : s.run = .running) (hh : s.hold = some h) :
    step s = .next (resumeHold h (hostTurn s)) := by
  simp [step, controllerStep, hr, runningStep, hh]

/-- At a step boundary the stop request wins over the fetch (R173, R174). -/
theorem step_of_stop (s : State) (hr : s.run = .running) (hh : s.hold = none) (hs : (hostTurn s).stopReq = true) :
    step s = .next ((hostTurn s).setRun .stopped) := by
  simp [step, controllerStep, hr, runningStep, hh, hs]

/-- Otherwise the decoded instruction runs on the state after the fetch. -/
theorem step_of_fetches (s : State) (h : s.Fetches) : step s = exec (fetchedInstr s) (fetch (hostTurn s)).2 := by
  simp [step, controllerStep, h.1, runningStep, h.2.1, h.2.2, fetchExecute, fetchedInstr]

/-- Everything a step that answers a next state can be. -/
theorem step_cases {s t : State} (h : step s = .next t) :
    s.run = .running ∧
    ((∃ hd, s.hold = some hd ∧ t = resumeHold hd (hostTurn s)) ∨
     (s.hold = none ∧ (hostTurn s).stopReq = true ∧ t = (hostTurn s).setRun .stopped) ∨
     (s.Fetches ∧ exec (fetchedInstr s) (fetch (hostTurn s)).2 = .next t)) := by
  have hr : s.run = .running := by
    refine Classical.byContradiction fun hne => ?_
    rw [step_of_terminal s hne] at h
    simp at h
  refine ⟨hr, ?_⟩
  cases hh : s.hold with
  | some hd =>
    rw [step_of_held s hd hr hh] at h
    exact .inl ⟨hd, rfl, by simpa using h.symm⟩
  | none =>
    cases hs : (hostTurn s).stopReq with
    | true =>
      rw [step_of_stop s hr hh hs] at h
      exact .inr (.inl ⟨rfl, rfl, by simpa using h.symm⟩)
    | false =>
      refine .inr (.inr ⟨⟨hr, hh, hs⟩, ?_⟩)
      rwa [step_of_fetches s ⟨hr, hh, hs⟩] at h

/-- The word placed for the next step is the one that step decodes and runs. -/
theorem step_placed (s : State) (w : Nat) :
    ∃ u, step (s.withFetchWord 16 w) = exec (decode (tableWord 16 w)) u ∧
      u.pc = (s.withFetchWord 16 w).pc + 1 ∧ u.run = .running ∧ u.hold = none := by
  have hplan : hostTurn (s.withFetchWord 16 w) =
      { s.withFetchWord 16 w with hostPlan := (s.withFetchWord 16 w).hostPlan.tail } := by
    cases h : s.hostPlan <;> simp [State.withFetchWord, placeFetched, hostTurn, h]
  have hf : (s.withFetchWord 16 w).Fetches := by
    refine ⟨rfl, rfl, ?_⟩
    rw [hplan]
    rfl
  have hpc : (s.withFetchWord 16 w).pc ≠ Config.kbsr := by
    simp only [State.withFetchWord, placeFetched]
    split
    · decide
    · assumption
  have hread : memRead (s.withFetchWord 16 w).pc (hostTurn (s.withFetchWord 16 w)) =
      (tableWord 16 w, hostTurn (s.withFetchWord 16 w)) := by
    rw [memRead_of_ne _ _ hpc, hostTurn_cell]
    simp [State.cell, State.withFetchWord, placeFetched]
  refine ⟨(fetch (hostTurn (s.withFetchWord 16 w))).2, ?_, ?_, ?_, ?_⟩
  · rw [step_of_fetches _ hf, fetchedInstr, fetch_eq, hostTurn_pc, hread]
  · rw [fetch_eq, hostTurn_pc, hread]; simp
  · rw [fetch_eq, hostTurn_pc, hread]; simp [hf.1]
  · rw [fetch_eq, hostTurn_pc, hread]; simp [hf.2.1]

end Sys2Proof.Machine
end

