-- ==== Sys2Proof/Tests/Slice0.lean ====
section
/-! SUPPORT. Small tests and the witnesses. Expected values are those of 95_test_vectors.md (the vector is named in each
docstring); nothing here is computed by the model and pasted in. A witness shows a state and operands that meet the
hypotheses of an obligation, each clause at the ends of its range. -/

namespace Sys2Proof.Tests

open Sys2Proof.Machine

/-! ### Helpers -/

/-- The registers of launch state STD (95_test_vectors.md, conventions). -/
def stdRegs : Vector Word 8 :=
  #v[0x0003#16, 0x0005#16, 0xFFFF#16, 0x8000#16, 0x7FFF#16, 0x00FF#16, 0x4000#16, 0x1234#16]

/-- Memory with the given cells. -/
def memOf (cells : List (Word × Word)) : Memory := cells.foldl (fun m c => Memory.write m c.1 c.2) []

/-- Launch state STD with a flag, cells and pending characters. -/
def std (cond : Cond) (cells : List (Word × Word)) (input : List Byte) : State :=
  { State.resetWith stdRegs cond input with mem := memOf cells }

/-- The state after one step, if the step answers one. -/
def after (s : State) : Option State :=
  match step s with
  | .next t => some t
  | .fault _ => none
  | .refused _ => none

/-- One step of the word alone at 0x3000: a register, the flag and the PC after it. -/
def regAfter (w : Word) (cond : Cond) (r : RegIdx) : Option (Word × Cond × Word) :=
  (after (std cond [(0x3000#16, w)] [])).map fun t => (t.reg r, t.cond, t.pc)

/-- The cells of V312, with the word at 0x3000. -/
def v312 (w : Word) : State :=
  std .zero [(0x3000#16, w), (0x0004#16, 0xBEEF#16), (0x2F01#16, 0x0042#16), (0x3002#16, 0x3002#16),
    (0x3005#16, 0x3100#16), (0x3006#16, 0xABCD#16), (0x3100#16, 0x7777#16), (0x3FE0#16, 0x000A#16),
    (0x4000#16, 0x8001#16), (0x401F#16, 0x0009#16), (0xFFFE#16, 0x00AA#16), (0xFE02#16, 0x0041#16)] []

/-- One step over the cells of V312: a register and the flag after it. -/
def loadAfter (w : Word) (r : RegIdx) : Option (Word × Cond) := (after (v312 w)).map fun t => (t.reg r, t.cond)

/-- One step over the cells of V312: a cell and the flag after it. -/
def cellAfter (w a : Word) : Option (Word × Cond) := (after (v312 w)).map fun t => (t.cell a, t.cond)

/-- One step with characters pending: R0, the flag, the input left, the output and the hold after it. -/
def ioAfter (s : State) : Option (Word × Cond × List Byte × List Byte × Option Hold) :=
  (after s).map fun t => (t.reg 0, t.cond, t.input, t.output, t.hold)

/-! ### WellFormed -/

/-- A defined vector in the fallback TRAP row is ill-formed, all six of them (R82). -/
theorem test_wellFormed_refuses :
    [0x20#8, 0x21#8, 0x22#8, 0x23#8, 0x24#8, 0x25#8].all (fun v => !(Instr.trap v).wellFormed) = true := by decide

/-- The neighbours of the defined vectors, and the other rows, are well-formed. -/
theorem test_wellFormed_accepts :
    (Instr.trap 0x1F#8).wellFormed = true ∧ (Instr.trap 0x26#8).wellFormed = true ∧
    rowSamples.all (fun i => i.wellFormed) = true := by decide

/-! ### Decode and encode: words of 95_test_vectors.md -/

/-- V310: the formats of ADD, AND and NOT. -/
theorem test_decode_operate :
    decode 0x1042#16 = .addReg 0 1 2 ∧ decode 0x1030#16 = .addImm 0 0 0x10#5 ∧ decode 0x56C2#16 = .andReg 3 3 2 ∧
    decode 0x5AF0#16 = .andImm 5 3 0x10#5 ∧ decode 0x98FF#16 = .not 4 3 := by decide

/-- V310, V311: ignored bits set decode to the same instruction. -/
theorem test_decode_ignored_bits :
    decode 0x1058#16 = decode 0x1040#16 ∧ decode 0x9080#16 = decode 0x90BF#16 ∧ decode 0xCE3F#16 = decode 0xC000#16 ∧
    decode 0x463F#16 = decode 0x4000#16 ∧ decode 0xFF25#16 = decode 0xF025#16 ∧ decode 0x8FFF#16 = .rti := by decide

/-- V311: the formats of BR, JMP, JSR and JSRR. -/
theorem test_decode_control :
    decode 0x0A05#16 = .br true false true 5#9 ∧ decode 0x0900#16 = .br true false false 0x100#9 ∧
    decode 0xC080#16 = .jmp 2 ∧ decode 0x4C00#16 = .jsr 0x400#11 ∧ decode 0x41C0#16 = .jsrr 7 := by decide

/-- V312: the formats of the loads, the stores and LEA. -/
theorem test_decode_load_store :
    decode 0x2300#16 = .ld 1 0x100#9 ∧ decode 0xA205#16 = .ldi 1 5#9 ∧ decode 0x6D9F#16 = .ldr 6 6 0x1F#6 ∧
    decode 0xEEFF#16 = .lea 7 0x0FF#9 ∧ decode 0x37FF#16 = .st 3 0x1FF#9 ∧ decode 0xB900#16 = .sti 4 0x100#9 ∧
    decode 0x7281#16 = .str 1 2 1#6 := by decide

/-- V314, V315: the TRAP rows and the two reserved opcodes. -/
theorem test_decode_trap :
    decode 0xF020#16 = .trapGetc ∧ decode 0xF021#16 = .trapOut ∧ decode 0xF022#16 = .trapPuts ∧
    decode 0xF023#16 = .trapIn ∧ decode 0xF024#16 = .trapPutsp ∧ decode 0xF025#16 = .trapHalt ∧
    decode 0xF01F#16 = .trap 0x1F#8 ∧ decode 0xF026#16 = .trap 0x26#8 ∧ decode 0xD123#16 = .res := by decide

/-- The same words from the other side (R72 to R81). -/
theorem test_encode :
    encode (.addReg 0 1 2) = 0x1042#16 ∧ encode (.andImm 5 3 0x10#5) = 0x5AF0#16 ∧ encode (.not 4 3) = 0x98FF#16 ∧
    encode (.br true false true 5#9) = 0x0A05#16 ∧ encode (.jsr 0x400#11) = 0x4C00#16 ∧ encode (.jsrr 7) = 0x41C0#16 ∧
    encode (.ldr 6 6 0x1F#6) = 0x6D9F#16 ∧ encode (.sti 4 0x100#9) = 0xB900#16 ∧ encode .trapHalt = 0xF025#16 := by
  decide

/-- The host's numbering of a one-word row; a longer instruction does not exist (R70). -/
theorem test_decodeTableWord :
    decodeTableWord 16 0xF025 = some .trapHalt ∧ decodeTableWord 32 0xF025 = none := by decide

/-- V300: sign extension. -/
theorem test_sext :
    sext 5 0x1F#16 = 0xFFFF#16 ∧ sext 5 0x0F#16 = 0x000F#16 ∧ sext 6 0x20#16 = 0xFFE0#16 ∧ sext 9 0x100#16 = 0xFF00#16 ∧
    sext 11 0x400#16 = 0xFC00#16 ∧ sext 16 0x8000#16 = 0x8000#16 ∧ sext 1 1#16 = 0xFFFF#16 ∧
    sext 8 0xABCD#16 = 0xFFCD#16 ∧ sext 8 0xAB4D#16 = 0x004D#16 := by decide

/-! ### ADD, AND, NOT (V310) -/

theorem test_add_wraps : regAfter 0x1042#16 .zero 0 = some (0x0004#16, .positive, 0x3001#16) := by decide
theorem test_add_crosses_sign : regAfter 0x1901#16 .zero 4 = some (0x8004#16, .negative, 0x3001#16) := by decide
theorem test_addImm_most_negative : regAfter 0x1030#16 .zero 0 = some (0xFFF3#16, .negative, 0x3001#16) := by decide
theorem test_addImm_to_zero : regAfter 0x14A1#16 .positive 2 = some (0x0000#16, .zero, 0x3001#16) := by decide
theorem test_and_register : regAfter 0x56C2#16 .positive 3 = some (0x8000#16, .negative, 0x3001#16) := by decide
theorem test_andImm_sign_extends : regAfter 0x54BF#16 .positive 2 = some (0xFFFF#16, .negative, 0x3001#16) := by decide
theorem test_andImm_clears : regAfter 0x5020#16 .positive 0 = some (0x0000#16, .zero, 0x3001#16) := by decide
theorem test_not : regAfter 0x98FF#16 .positive 4 = some (0x7FFF#16, .positive, 0x3001#16) := by decide
theorem test_not_to_zero : regAfter 0x92BF#16 .positive 1 = some (0x0000#16, .zero, 0x3001#16) := by decide

/-! ### BR, JMP, JSR, JSRR (V311) -/

theorem test_br_taken : regAfter 0x03FD#16 .positive 7 = some (0x1234#16, .positive, 0x2FFE#16) := by decide
theorem test_br_not_taken : regAfter 0x0A05#16 .zero 7 = some (0x1234#16, .zero, 0x3001#16) := by decide
theorem test_jmp : regAfter 0xC080#16 .zero 7 = some (0x1234#16, .zero, 0xFFFF#16) := by decide
theorem test_jsr_most_negative : regAfter 0x4C00#16 .zero 7 = some (0x3001#16, .zero, 0x2C01#16) := by decide
theorem test_jsr_forward : regAfter 0x4802#16 .zero 7 = some (0x3001#16, .zero, 0x3003#16) := by decide
theorem test_jsrr : regAfter 0x4080#16 .zero 7 = some (0x3001#16, .zero, 0xFFFF#16) := by decide
theorem test_jsrr_r7 : regAfter 0x41C0#16 .zero 7 = some (0x3001#16, .zero, 0x3001#16) := by decide

/-- JSR #0 at 0xFFFF: R7 and the PC wrap to 0. -/
theorem test_jsr_wraps :
    (after ((std .zero [(0xFFFF#16, 0x4800#16)] []).setPc 0xFFFF#16)).map (fun t => (t.reg 7, t.pc)) =
      some (0x0000#16, 0x0000#16) := by decide

/-! ### Loads, stores, LEA (V312) -/

theorem test_ld : loadAfter 0x2005#16 0 = some (0xABCD#16, .negative) := by decide
theorem test_ld_itself : loadAfter 0x23FF#16 1 = some (0x23FF#16, .positive) := by decide
theorem test_ldi : loadAfter 0xA004#16 0 = some (0x7777#16, .positive) := by decide
theorem test_ldi_unloaded : loadAfter 0xA205#16 1 = some (0x0000#16, .zero) := by decide
theorem test_ldr_base_is_destination : loadAfter 0x6D80#16 6 = some (0x8001#16, .negative) := by decide
theorem test_ldr_wraps : loadAfter 0x6085#16 0 = some (0xBEEF#16, .negative) := by decide
theorem test_lea : loadAfter 0xE005#16 0 = some (0x3006#16, .positive) := by decide
theorem test_lea_backward : loadAfter 0xE100#16 0 = some (0x2F01#16, .positive) := by decide
theorem test_st : cellAfter 0x3004#16 0x3005#16 = some (0x0003#16, .zero) := by decide
theorem test_st_over_itself : cellAfter 0x37FF#16 0x3000#16 = some (0x8000#16, .zero) := by decide
theorem test_sti : cellAfter 0xB604#16 0x3100#16 = some (0x8000#16, .zero) := by decide
theorem test_sti_over_its_pointer : cellAfter 0xB001#16 0x3002#16 = some (0x0003#16, .zero) := by decide
theorem test_str_wraps : cellAfter 0x7281#16 0x0000#16 = some (0x0005#16, .zero) := by decide
theorem test_str_most_negative : cellAfter 0x7DA0#16 0x3FE0#16 = some (0x4000#16, .zero) := by decide

/-! ### The keyboard registers (V313) -/

/-- LDI through KBSR with two characters pending takes the first into KBDR. -/
theorem test_poll_takes_character :
    (after (std .negative [(0x3000#16, 0xA003#16), (0x3004#16, 0xFE00#16)] [0x31#8, 0x32#8])).map
      (fun t => (t.reg 0, t.cond, t.cell 0xFE00#16, t.cell 0xFE02#16, t.input)) =
    some (0x8000#16, .negative, 0x8000#16, 0x0031#16, [0x32#8]) := by decide

/-- With none pending KBSR reads 0 and KBDR is left alone. -/
theorem test_poll_without_character :
    (after (std .negative [(0x3000#16, 0xA003#16), (0x3004#16, 0xFE00#16), (0xFE00#16, 0x0005#16),
        (0xFE02#16, 0x0007#16)] [])).map
      (fun t => (t.reg 0, t.cond, t.cell 0xFE00#16, t.cell 0xFE02#16)) =
    some (0x0000#16, .zero, 0x0000#16, 0x0007#16) := by decide

/-- The fetch polls: at KBSR with a character pending it executes 0x8000 and aborts. -/
theorem test_fetch_from_kbsr :
    (after ((std .negative [] [0x41#8]).setPc 0xFE00#16)).map
      (fun t => (t.run, t.pc, t.cell 0xFE00#16, t.cell 0xFE02#16, t.input)) =
    some (.aborted, 0xFE01#16, 0x8000#16, 0x0041#16, []) := by decide

/-! ### TRAP (V314) -/

theorem test_getc :
    ioAfter (std .negative [(0x3000#16, 0xF020#16)] [0xE9#8]) = some (0x00E9#16, .negative, [], [], none) := by decide

theorem test_getc_waits :
    ioAfter (std .negative [(0x3000#16, 0xF020#16)] []) = some (0x0003#16, .negative, [], [], some .getc) := by decide

theorem test_out :
    ioAfter ((std .negative [(0x3000#16, 0xF021#16)] []).setReg 0 0x1261#16) =
      some (0x1261#16, .negative, [], [0x61#8], none) := by decide

/-- The end test of PUTS is on the whole word, and the high byte is dropped. -/
theorem test_puts :
    ioAfter ((std .negative [(0x3000#16, 0xF022#16), (0x3003#16, 0x4100#16), (0x3004#16, 0x1248#16)] []).setReg 0
        0x3003#16) =
      some (0x3003#16, .negative, [], [0x00#8, 0x48#8], none) := by decide

theorem test_puts_wraps :
    ioAfter ((std .negative [(0x3000#16, 0xF022#16), (0xFFFF#16, 0x0041#16), (0x0000#16, 0x0042#16)] []).setReg 0
        0xFFFF#16) =
      some (0xFFFF#16, .negative, [], [0x41#8, 0x42#8], none) := by decide

theorem test_in :
    ioAfter (std .negative [(0x3000#16, 0xF023#16)] [0x0A#8]) =
      some (0x000A#16, .negative, [], Config.inPrompt ++ [0x0A#8], none) := by rfl

theorem test_in_waits :
    ioAfter (std .negative [(0x3000#16, 0xF023#16)] []) =
      some (0x0003#16, .negative, [], Config.inPrompt, some .inChar) := by rfl

theorem test_putsp :
    ioAfter ((std .negative [(0x3000#16, 0xF024#16), (0x3003#16, 0x6548#16), (0x3004#16, 0x6C6C#16),
        (0x3005#16, 0x006F#16)] []).setReg 0 0x3003#16) =
      some (0x3003#16, .negative, [], [0x48#8, 0x65#8, 0x6C#8, 0x6C#8, 0x6F#8], none) := by decide

theorem test_putsp_low_byte_untested :
    ioAfter ((std .negative [(0x3000#16, 0xF024#16), (0x3003#16, 0x4100#16)] []).setReg 0 0x3003#16) =
      some (0x3003#16, .negative, [], [0x00#8, 0x41#8], none) := by decide

/-- V305: one fetch, the notice, HALTED. -/
theorem test_halt :
    (after (std .negative [(0x3000#16, 0xF025#16)] [])).map (fun t => (t.run, t.pc, t.output)) =
      some (.halted, 0x3001#16, Config.haltNotice) := by rfl

theorem test_undefined_vector :
    after (std .negative [(0x3000#16, 0xF026#16)] []) =
      some ((std .negative [(0x3000#16, 0xF026#16)] []).setPc 0x3001#16) := by decide

/-- The other value of UNDEFINED_TRAP: the fatal abort. -/
theorem test_undefined_vector_fatal : (undefinedVector .fatal (std .negative [] [])).run = .aborted := by decide

/-! ### Reserved opcodes and the stop request (V315) -/

theorem test_rti_aborts :
    after (std .positive [(0x3000#16, 0x8FFF#16)] []) =
      some (((std .positive [(0x3000#16, 0x8FFF#16)] []).setPc 0x3001#16).setRun .aborted) := by decide

theorem test_res_aborts :
    after (std .positive [(0x3000#16, 0xD123#16)] []) =
      some (((std .positive [(0x3000#16, 0xD123#16)] []).setPc 0x3001#16).setRun .aborted) := by decide

/-- The stop wins over the abort: nothing is fetched. -/
theorem test_stop_before_fetch :
    (after { std .positive [(0x3000#16, 0x8000#16)] [] with stopReq := true }).map (fun t => (t.run, t.pc)) =
      some (.stopped, 0x3000#16) := by decide

/-- A terminal state is not left. -/
theorem test_terminal : step ((std .positive [] []).setRun .halted) = .fault (.noStep .halted) := by rfl

/-- The hold of GETC in V314, lifted by a character the host appends: R0 = 0041 and the step ends. -/
theorem test_hold_lifted_by_character :
    (after { (std .negative [] []).setHold (some .getc) with hostPlan := [[.supply 0x41#8]] }).map
      (fun t => (t.reg 0, t.hold, t.run, t.input)) = some (0x0041#16, none, .running, []) := by decide

/-- The same hold, lifted by the stop request: R0 unwritten, STOPPED. -/
theorem test_hold_lifted_by_stop :
    (after { (std .negative [] []).setHold (some .getc) with hostPlan := [[.requestStop]] }).map
      (fun t => (t.reg 0, t.hold, t.run)) = some (0x0003#16, none, .stopped) := by decide

/-! ### Reset, load, the placed word -/

/-- R192, R195, R203: from reset with nothing placed the first step is the no-op 0x0000. -/
theorem test_reset_slides : after State.reset = some (State.reset.setPc 0x3001#16) := by decide

/-- V308: the later image wins where two overlap. -/
theorem test_images_overlap :
    (fun s : State => (s.cell 0x3000#16, s.cell 0x3001#16))
      (hostLoad [⟨0x3000#16, [0x1111#16, 0x2222#16]⟩, ⟨0x3001#16, [0x3333#16]⟩] State.reset) =
    (0x1111#16, 0x3333#16) := by decide

/-- R197: words that would pass 0xFFFF are not loaded. -/
theorem test_image_does_not_wrap :
    (fun s : State => (s.cell 0xFFFF#16, s.cell 0x0000#16))
      (hostLoad [⟨0xFFFF#16, [0x1111#16, 0x2222#16]⟩] State.reset) = (0x1111#16, 0x0000#16) := by decide

/-- The placed word runs as the next step, from reset and from a terminal state (V306: LEA R0,#5). -/
theorem test_placed_word :
    (after (State.reset.withFetchWord 16 0xE005)).map (fun t => (t.reg 0, t.cond)) = some (0x3006#16, .positive) ∧
    (after ((State.reset.setRun .halted).withFetchWord 16 0xE005)).map (fun t => (t.reg 0, t.pc)) =
      some (0x3006#16, 0x3001#16) := by decide

/-! ### Witnesses for the hypotheses of the obligations -/

/-- A state that is about to fetch the word. -/
def fetching (w : Word) : State := std .zero [(0x3000#16, w)] []

theorem witness_DecodeOfEncode :
    (Instr.trap 0x00#8).wellFormed = true ∧ (Instr.trap 0x1F#8).wellFormed = true ∧
    (Instr.trap 0x26#8).wellFormed = true ∧ (Instr.trap 0xFF#8).wellFormed = true ∧
    (Instr.addImm 7 7 0x1F#5).wellFormed = true := by decide

/-- The least and the greatest word of each clause. -/
theorem witness_IgnoredBitsDoNotMatter :
    (opcodeOf 0x1000#16 = 1#4 ∧ (0x1000#16).getLsbD 5 = false) ∧ (opcodeOf 0x5FDF#16 = 5#4 ∧ (0x5FDF#16).getLsbD 5 = false) ∧
    opcodeOf 0x9FFF#16 = 9#4 ∧ opcodeOf 0xCFFF#16 = 12#4 ∧
    (opcodeOf 0x4000#16 = 4#4 ∧ (0x4000#16).getLsbD 11 = false) ∧ (opcodeOf 0x47FF#16 = 4#4 ∧ (0x47FF#16).getLsbD 11 = false) ∧
    opcodeOf 0xFFFF#16 = 15#4 ∧ opcodeOf 0x8FFF#16 = 8#4 ∧ opcodeOf 0xD000#16 = 13#4 := by decide

/-- A word matches its own row, and the fallback TRAP row beside it in the one case where rows overlap. -/
theorem witness_OpcodeMapPartitionsWords :
    (decode 0x1042#16).row ∈ opcodeTable ∧ (decode 0x1042#16).row.matches 0x1042#16 = true ∧
    (⟨"TRAP", 0xF000#16, 0xF000#16⟩ : OpcodeRow) ∈ opcodeTable ∧
    (⟨"TRAP", 0xF000#16, 0xF000#16⟩ : OpcodeRow).matches 0xF020#16 = true ∧
    (decode 0xF020#16).row.mask = 0xF0FF#16 := by decide

/-- The least and the greatest width, with a bit below the width and, for the first, one above it; both signs. -/
theorem witness_SignExtension :
    (∃ n k : Nat, n = 1 ∧ 1 ≤ n ∧ n ≤ 16 ∧ 0 < n ∧ k = 15 ∧ n ≤ k ∧ k < 16 ∧
      (0#16).toNat % 2 ^ n < 2 ^ (n - 1) ∧ ¬ (1#16).toNat % 2 ^ n < 2 ^ (n - 1)) ∧
    ∃ n k : Nat, n = 16 ∧ 1 ≤ n ∧ n ≤ 16 ∧ k = 15 ∧ k < n := ⟨⟨1, 15, by decide⟩, 16, 15, by decide⟩

/-- The ends of the two ranges of illegal words, and their neighbours. -/
theorem witness_IllegalEncodings :
    decode 0x8000#16 = .rti ∧ decode 0x8FFF#16 = .rti ∧ decode 0xD000#16 = .res ∧ decode 0xDFFF#16 = .res ∧
    (decode 0x7FFF#16 ≠ .rti ∧ decode 0x7FFF#16 ≠ .res) ∧ (decode 0x9000#16 ≠ .rti ∧ decode 0x9000#16 ≠ .res) ∧
    (decode 0xCFFF#16 ≠ .rti ∧ decode 0xCFFF#16 ≠ .res) ∧ (decode 0xE000#16 ≠ .rti ∧ decode 0xE000#16 ≠ .res) := by decide

/-- The opcode hypotheses of the statements about one instruction, at the ends of each opcode's range. -/
theorem witness_operate_words :
    (opcodeOf 0x1000#16 = 1#4 ∧ (0x1000#16).getLsbD 5 = false) ∧ (opcodeOf 0x1FDF#16 = 1#4 ∧ (0x1FDF#16).getLsbD 5 = false) ∧
    (opcodeOf 0x1020#16 = 1#4 ∧ (0x1020#16).getLsbD 5 = true) ∧ (opcodeOf 0x1FFF#16 = 1#4 ∧ (0x1FFF#16).getLsbD 5 = true) ∧
    (opcodeOf 0x5000#16 = 5#4 ∧ (0x5000#16).getLsbD 5 = false) ∧ (opcodeOf 0x5FDF#16 = 5#4 ∧ (0x5FDF#16).getLsbD 5 = false) ∧
    (opcodeOf 0x5020#16 = 5#4 ∧ (0x5020#16).getLsbD 5 = true) ∧ (opcodeOf 0x5FFF#16 = 5#4 ∧ (0x5FFF#16).getLsbD 5 = true) ∧
    opcodeOf 0x9000#16 = 9#4 ∧ opcodeOf 0x9FFF#16 = 9#4 := by decide

theorem witness_control_words :
    opcodeOf 0x0000#16 = 0#4 ∧ opcodeOf 0x0FFF#16 = 0#4 ∧ opcodeOf 0xC000#16 = 12#4 ∧ opcodeOf 0xCFFF#16 = 12#4 ∧
    (opcodeOf 0x4800#16 = 4#4 ∧ (0x4800#16).getLsbD 11 = true) ∧ (opcodeOf 0x4FFF#16 = 4#4 ∧ (0x4FFF#16).getLsbD 11 = true) ∧
    (opcodeOf 0x4000#16 = 4#4 ∧ (0x4000#16).getLsbD 11 = false) ∧ (opcodeOf 0x47FF#16 = 4#4 ∧ (0x47FF#16).getLsbD 11 = false) := by
  decide

theorem witness_load_store_words :
    opcodeOf 0x2000#16 = 2#4 ∧ opcodeOf 0x2FFF#16 = 2#4 ∧ opcodeOf 0xA000#16 = 10#4 ∧ opcodeOf 0xAFFF#16 = 10#4 ∧
    opcodeOf 0x6000#16 = 6#4 ∧ opcodeOf 0x6FFF#16 = 6#4 ∧ opcodeOf 0xE000#16 = 14#4 ∧ opcodeOf 0xEFFF#16 = 14#4 ∧
    opcodeOf 0x3000#16 = 3#4 ∧ opcodeOf 0x3FFF#16 = 3#4 ∧ opcodeOf 0xB000#16 = 11#4 ∧ opcodeOf 0xBFFF#16 = 11#4 ∧
    opcodeOf 0x7000#16 = 7#4 ∧ opcodeOf 0x7FFF#16 = 7#4 := by decide

theorem witness_trap_words :
    (opcodeOf 0xF020#16 = 15#4 ∧ (0xF020#16).extractLsb' 0 8 = 0x20#8) ∧
    (opcodeOf 0xFF21#16 = 15#4 ∧ (0xFF21#16).extractLsb' 0 8 = 0x21#8) ∧
    (opcodeOf 0xF022#16 = 15#4 ∧ (0xF022#16).extractLsb' 0 8 = 0x22#8) ∧
    (opcodeOf 0xFF23#16 = 15#4 ∧ (0xFF23#16).extractLsb' 0 8 = 0x23#8) ∧
    (opcodeOf 0xF024#16 = 15#4 ∧ (0xF024#16).extractLsb' 0 8 = 0x24#8) ∧
    (opcodeOf 0xFF25#16 = 15#4 ∧ (0xFF25#16).extractLsb' 0 8 = 0x25#8) := by decide

/-- The flag's three cases. -/
theorem witness_FlagOf :
    FlagOf 0x0000#16 .zero ∧ FlagOf 0x0001#16 .positive ∧ FlagOf 0x7FFF#16 .positive ∧ FlagOf 0x8000#16 .negative ∧
    FlagOf 0xFFFF#16 .negative := by decide

theorem witness_AddImmediate : (std .zero [] []).reg 2 = sextField 0x1F#5 := by decide

/-- A branch taken for each flag, and one not taken. -/
theorem witness_Branch :
    (true = true ∧ (std .negative [] []).cond = .negative) ∧ (std .zero [] []).cond = .zero ∧
    (std .positive [] []).cond = .positive ∧
    ¬ ((true = true ∧ (std .zero [] []).cond = .negative) ∨ (false = true ∧ (std .zero [] []).cond = .zero) ∨
      (true = true ∧ (std .zero [] []).cond = .positive)) := by decide

theorem witness_NoOpEncodings :
    0x0000#16 ≤ 0x01FF#16 ∧ 0x01FF#16 ≤ 0x01FF#16 ∧ (opcodeOf 0x0E00#16 = 0#4 ∧ (0x0E00#16).extractLsb' 9 3 = 7#3) ∧
    (opcodeOf 0x0FFF#16 = 0#4 ∧ (0x0FFF#16).extractLsb' 9 3 = 7#3) := by decide

theorem witness_JumpSubroutineRegister : (0 : RegIdx) ≠ 7 ∧ (6 : RegIdx) ≠ 7 ∧ (7 : RegIdx) = 7 := by decide

/-- V304: after the call, the state the JSR leaves is one in which R7 is as the JSR left it. -/
theorem witness_CallReturns :
    ∃ t u : State, exec (.jsr 2#11) (std .zero [] []) = .next t ∧ u.reg 7 = t.reg 7 := ⟨_, _, rfl, rfl⟩

theorem witness_InterceptedRead :
    0xFDFF#16 ≠ Config.kbsr ∧ 0xFE01#16 ≠ Config.kbsr ∧ Config.kbdr ≠ Config.kbsr ∧ (std .zero [] []).input = [] ∧
    (std .zero [] [0x41#8]).input = 0x41#8 :: [] ∧ 0xFE01#16 ≠ Config.kbdr := by decide

theorem witness_character_pending : (std .zero [] [0x41#8, 0x42#8]).input = 0x41#8 :: [0x42#8] := by decide

theorem witness_EmptyInputHolds : (std .zero [] []).input = [] := by decide

/-- A machine held in GETC, and what the host has planned for the next step. -/
def held (h : Hold) (plan : List (List HostAction)) : State :=
  { (std .zero [] []).setHold (some h) with hostPlan := plan }

/-- For both holds: the stop, neither, and a character (with the stop request clear). -/
theorem witness_HoldIsLifted :
    (held .getc []).run = .running ∧ (held .getc []).hold = some .getc ∧ (held .inChar []).hold = some .inChar ∧
    (hostTurn (held .getc [[.supply 0x41#8, .requestStop]])).stopReq = true ∧
    ((hostTurn (held .inChar [[]])).stopReq = false ∧ (hostTurn (held .inChar [[]])).input = []) ∧
    ((hostTurn (held .inChar [[.supply 0x41#8]])).stopReq = false ∧
      (hostTurn (held .inChar [[.supply 0x41#8]])).input = 0x41#8 :: []) := by decide

/-- A string of two words, and the empty string. -/
theorem witness_StringAt :
    StringAt ((std .zero [(0x0003#16, 0x0048#16), (0x0004#16, 0x0049#16)] [])) ((std .zero [] []).reg 0) 2 ∧
    StringAt (std .zero [] []) ((std .zero [] []).reg 0) 0 := by decide

/-- The undefined vectors at the four ends of their ranges. -/
theorem witness_UndefinedVectorIsNoOp :
    (opcodeOf 0xF000#16 = 15#4 ∧ (0xF000#16).extractLsb' 0 8 < 0x20#8) ∧ 0x1F#8 < 0x20#8 ∧ 0x25#8 < 0x26#8 ∧
    (opcodeOf 0xFFFF#16 = 15#4 ∧ 0x25#8 < (0xFFFF#16).extractLsb' 0 8) := by decide

/-- R0 changes under GETC; a terminal machine is one whose run state an instruction leaves ABORTED. -/
theorem witness_TrapDispatch :
    (opcodeOf 0xF020#16 = 15#4 ∧ (getcTake (std .zero [] [0x7A#8])).reg 0 ≠ (std .zero [] [0x7A#8]).reg 0) ∧
    ((outChar ((std .zero [] []).setRun .aborted)).run = .aborted ∧ ((std .zero [] []).setRun .aborted).run = .aborted) := by
  decide

theorem witness_ReservedOpcodesAbort :
    opcodeOf 0x8000#16 = 8#4 ∧ opcodeOf 0x8FFF#16 = 8#4 ∧ opcodeOf 0xD000#16 = 13#4 ∧ opcodeOf 0xDFFF#16 = 13#4 ∧
    (Instr.rti = .rti ∨ Instr.rti = .res) ∧ (Instr.res = .rti ∨ Instr.res = .res) := by decide

theorem witness_AbortIsPrecise :
    ((fetching 0x8000#16).Fetches ∧ fetchedInstr (fetching 0x8000#16) = .rti) ∧
    ((fetching 0xDFFF#16).Fetches ∧ fetchedInstr (fetching 0xDFFF#16) = .res) := by decide

theorem witness_StepRunsDecodedInstruction :
    ((fetching 0).setRun .halted).run ≠ .running ∧
    ((held .getc [[.requestStop]]).run = .running ∧ ((held .getc [[.requestStop]]).setHold none).hold = none ∧
      (hostTurn ((held .getc [[.requestStop]]).setHold none)).stopReq = true) ∧
    ((fetching 0x1042#16).Fetches ∧
      decode (memRead (fetching 0x1042#16).pc (hostTurn (fetching 0x1042#16))).1 = .addReg 0 1 2) := by decide

/-- The fetch from KBSR with and without a character; a store just before the fetch of the same address. -/
theorem witness_FetchIsIntercepted :
    (((std .zero [] []).setPc 0xFE00#16).Fetches ∧ ((std .zero [] []).setPc 0xFE00#16).pc = Config.kbsr ∧
      (hostTurn ((std .zero [] []).setPc 0xFE00#16)).input = []) ∧
    (((std .zero [] [0x41#8]).setPc 0xFE00#16).Fetches ∧
      (hostTurn ((std .zero [] [0x41#8]).setPc 0xFE00#16)).input = 0x41#8 :: []) ∧
    (0xFE02#16 ≠ Config.kbsr ∧ ((memWrite 0xFE02#16 0xF025#16 (std .zero [] [])).setPc 0xFE02#16).Fetches) := by decide

theorem witness_UnloadedMemorySlides :
    (State.reset.Fetches ∧ State.reset.pc ≠ Config.kbsr ∧ State.reset.cell State.reset.pc = 0) ∧
    ((State.reset.setPc 0xFFFF#16).Fetches ∧ (State.reset.setPc 0xFFFF#16).pc ≠ Config.kbsr ∧
      (State.reset.setPc 0xFFFF#16).cell 0xFFFF#16 = 0) := by decide

/-- A step that changes the flag, beside the two kinds of instruction. -/
theorem witness_OnlySevenInstructionsWriteFlag :
    flagDest (.lea 0 5#9) = some 0 ∧ flagDest .trapGetc = none ∧
    ∃ t, step (fetching 0x1042#16) = .next t ∧ t.cond ≠ (fetching 0x1042#16).cond := ⟨by decide, by decide, _, rfl, by decide⟩

/-- A step into each of the three terminal run states. -/
theorem witness_RunStateTransitions :
    (∃ t, step (fetching 0xF025#16) = .next t ∧ t.run = .halted ∧ t.run ≠ .running) ∧
    (∃ t, step (fetching 0x8000#16) = .next t ∧ t.run = .aborted) ∧
    (∃ t, step { fetching 0 with stopReq := true } = .next t ∧ t.run = .stopped) :=
  ⟨⟨_, rfl, rfl, nofun⟩, ⟨_, rfl, rfl⟩, ⟨_, rfl, rfl⟩⟩

/-- A register that changes, beside a well-formed instruction. -/
theorem witness_RegistersWritten :
    (Instr.jsr 2#11).wellFormed = true ∧
    ∃ t, exec (.jsr 2#11) (std .zero [] []) = .next t ∧ t.reg 7 ≠ (std .zero [] []).reg 7 :=
  ⟨by decide, _, rfl, by decide⟩

theorem witness_OnlyControlTransferWritesPc :
    writesPc (.addReg 0 1 2) = false ∧ writesPc .trapHalt = false ∧ writesPc (.trap 0xFF#8) = false := by decide

/-- A stored cell and a polled cell that change. -/
theorem witness_CellsWritten :
    (∃ t, exec (.st 0 5#9) (std .zero [] []) = .next t ∧ t.cell 0x3005#16 ≠ (std .zero [] []).cell 0x3005#16) ∧
    (∃ t, exec (.ldr 0 2 0#6) ((std .zero [] [0x41#8]).setReg 2 0xFE00#16) = .next t ∧
      t.cell 0xFE02#16 ≠ ((std .zero [] [0x41#8]).setReg 2 0xFE00#16).cell 0xFE02#16) :=
  ⟨⟨_, rfl, by decide⟩, ⟨_, rfl, by decide⟩⟩

theorem witness_InputTakenFromHead :
    Instr.trapGetc.wellFormed = true ∧ Polls (.ldr 0 2 0#6) ((std .zero [] [0x41#8]).setReg 2 0xFE00#16) := by decide

theorem witness_OutputOnlyGrows :
    (∃ t, step (fetching 0xF021#16) = .next t) ∧ Instr.trapOut.wellFormed = true := ⟨⟨_, rfl⟩, by decide⟩

theorem witness_OutputIsUnobservable : ∃ t, step (fetching 0xF021#16) = .next t := ⟨_, rfl⟩

theorem witness_StopRequestIsTheHosts :
    ∃ t, step { fetching 0 with stopReq := true } = .next t ∧ { fetching 0 with stopReq := true : State }.stopReq = true :=
  ⟨_, rfl, rfl⟩

/-- An empty plan, an empty entry, and an entry that mixes supplies with a stop request. -/
theorem witness_HostTurnSuppliesAndStops :
    (fetching 0).hostPlan = [] ∧ (held .getc [[]]).hostPlan = [] :: [] ∧
    ((held .getc [[.supply 1#8, .requestStop, .supply 2#8], []]).hostPlan =
      [.supply 1#8, .requestStop, .supply 2#8] :: [[]] ∧
      HostAction.requestStop ∈ [HostAction.supply 1#8, .requestStop, .supply 2#8]) ∧
    ∃ t, step (held .getc [[.requestStop]]) = .next t :=
  ⟨rfl, rfl, ⟨rfl, by decide⟩, _, rfl⟩

/-- R31, R33: a mixed entry appends its bytes in order and sets the request. -/
theorem test_host_turn_mixed :
    (hostTurn { std .zero [] [0x41#8] with hostPlan := [[.supply 1#8, .requestStop, .supply 2#8]] }).input =
      [0x41#8, 1#8, 2#8] ∧
    (hostTurn { std .zero [] [0x41#8] with hostPlan := [[.supply 1#8, .requestStop, .supply 2#8]] }).stopReq = true ∧
    suppliedBytes [.supply 1#8, .requestStop, .supply 2#8] = [1#8, 2#8] := by decide

theorem witness_StepKeepsInvariant :
    State.reset.Inv ∧ (held .getc []).Inv ∧ (∃ t, step State.reset = .next t) ∧ ∃ t, step (held .getc []) = .next t :=
  ⟨by decide, by decide, ⟨_, rfl⟩, ⟨_, rfl⟩⟩

/-- An image that covers 0x3000 and 0x3001 and no other cell; the last cell of memory. -/
theorem witness_HostLoadsImages :
    0x3000 + 1 < 65536 ∧ 0xFFFF + 0 < 65536 ∧ (⟨0x3000#16, [1#16, 2#16]⟩ : Image).Covers 0x3001#16 ∧
    ¬ (⟨0x3000#16, [1#16, 2#16]⟩ : Image).Covers 0x3002#16 := by
  refine ⟨by decide, by decide, ⟨1, by decide, by decide⟩, ?_⟩
  rintro ⟨k, hk, h⟩
  have h2 : k < 2 := hk
  have h3 : 0x3000 + k = 0x3002 := h
  omega

/-! ### Memory with no zero word -/

/-- `n` cells from address `a`, each holding 1. -/
def ones : Nat → Nat → Memory
  | 0, _ => []
  | n + 1, a => (a, 0x0001#16) :: ones n (a + 1)

theorem lookup_ones (n a b : Nat) (hle : a ≤ b) (hlt : b < a + n) : Memory.lookup (ones n a) b = 0x0001#16 := by
  induction n generalizing a with
  | zero => omega
  | succ n ih =>
    simp only [ones, Memory.lookup]
    split
    · rfl
    · exact ih (a + 1) (by omega) (by omega)

theorem lookup_ones_past (n a b : Nat) (h : a + n ≤ b) : Memory.lookup (ones n a) b = 0x0000#16 := by
  induction n generalizing a with
  | zero => rfl
  | succ n ih =>
    simp only [ones, Memory.lookup]
    split
    · omega
    · exact ih (a + 1) (by omega)

/-- `n` words from address 0 and the zero word after them are a string. -/
theorem stringAt_ones (s : State) (n : Nat) (hn : n < 65536) (hmem : s.mem = ones n 0) : StringAt s 0 n := by
  have hadd : ∀ k, k ≤ n → ((0 : Word) + BitVec.ofNat 16 k).toNat = k := by
    intro k hk
    rw [BitVec.toNat_add, BitVec.toNat_ofNat, show (0 : Word).toNat = 0 from rfl]
    omega
  refine ⟨hn, fun k hk => ?_, ?_⟩
  · rw [State.cell, Memory.read, hmem, hadd k (by omega), lookup_ones n 0 k (by omega) (by omega)]
    decide
  · rw [State.cell, Memory.read, hmem, hadd n (by omega)]
    exact lookup_ones_past n 0 n (by omega)

/-- The longest string: 65535 words from address 0, and the zero word at 0xFFFF. -/
theorem witness_StringAt_longest : ∃ s : State, s.reg 0 = 0 ∧ StringAt s (s.reg 0) 65535 :=
  ⟨State.reset.setMem (ones 65535 0), rfl, stringAt_ones _ 65535 (by decide) rfl⟩

/-- A machine held in a scan over memory that holds 1 everywhere. -/
def heldInScan (kind : ScanKind) : State := { State.reset with mem := ones 65536 0, hold := some (.scan kind 0x3000#16) }

/-- All the hypotheses: a zero word; none; a machine held in a scan over memory with none, and over memory with one. -/
theorem witness_ScanWithoutZeroNeverEnds :
    (∃ a, State.reset.cell a = 0) ∧ (∀ kind a, (heldInScan kind).cell a ≠ 0) ∧
    (∀ kind, (heldInScan kind).run = .running ∧ (heldInScan kind).hold = some (.scan kind 0x3000#16)) ∧
    ∀ kind, (held (.scan kind 0x3000#16) []).run = .running ∧
      (held (.scan kind 0x3000#16) []).hold = some (.scan kind 0x3000#16) ∧
      ∃ b, (held (.scan kind 0x3000#16) []).cell b = 0 := by
  refine ⟨⟨0, rfl⟩, fun kind a => ?_, fun kind => ⟨rfl, rfl⟩, fun kind => ⟨rfl, rfl, 0, rfl⟩⟩
  have h : (heldInScan kind).cell a = 0x0001#16 := lookup_ones 65536 0 a.toNat (by omega) (by have := a.isLt; omega)
  rw [h]
  decide

end Sys2Proof.Tests
end

section
/-! PROOFS. Sign extension (00_scope.md R8): the bits and the value of `sext`, and the signed fields as its uses. -/

namespace Sys2Proof.Machine

/-- A bit of a sign-extended field: the field's own, or above it the field's top bit (R8). -/
theorem getLsbD_sextField {n : Nat} (f : BitVec n) (k : Nat) :
    (sextField f).getLsbD k = (decide (k < 16) && if k < n then f.getLsbD k else f.msb) :=
  BitVec.getLsbD_signExtend f

/-- The closed form of R8 for a field: its value, plus what the copied bits weigh when the top bit is set. -/
theorem toNat_sextField {n : Nat} (f : BitVec n) (hn : n ≤ 16) :
    (sextField f).toNat = if f.msb then f.toNat + (65536 - 2 ^ n) else f.toNat := by
  rw [sextField, BitVec.toNat_signExtend, BitVec.toNat_setWidth_of_le hn]
  cases f.msb <;> simp

/-- `sext n` keeps the low n bits. -/
theorem getLsbD_sext_of_lt {n k : Nat} (v : Word) (hk : k < n) (hn : n ≤ 16) :
    (sext n v).getLsbD k = v.getLsbD k := by
  rw [sext, getLsbD_sextField, if_pos hk, BitVec.getLsbD_setWidth]
  simp [hk, show k < 16 by omega]

/-- `sext n` copies bit n-1 into every higher bit. -/
theorem getLsbD_sext_of_ge {n k : Nat} (v : Word) (h1 : 1 ≤ n) (hk : n ≤ k) (hk16 : k < 16) :
    (sext n v).getLsbD k = v.getLsbD (n - 1) := by
  rw [sext, getLsbD_sextField, if_neg (Nat.not_lt.mpr hk), BitVec.msb_setWidth]
  simp [hk16, show 0 < n by omega]

/-- The closed form of R8: the top bit of the low n bits is clear exactly if they are below 2^(n-1). -/
theorem toNat_sext {n : Nat} (v : Word) (hn : n ≤ 16) :
    (sext n v).toNat =
      if v.toNat % 2 ^ n < 2 ^ (n - 1) then v.toNat % 2 ^ n else v.toNat % 2 ^ n + 65536 - 2 ^ n := by
  have hpow : 2 ^ n ≤ 2 ^ 16 := Nat.pow_le_pow_right (by decide) hn
  rw [sext, toNat_sextField _ hn, BitVec.msb_eq_decide, BitVec.toNat_setWidth]
  by_cases hlow : v.toNat % 2 ^ n < 2 ^ (n - 1)
  · simp [hlow, Nat.not_le.mpr hlow]
  · simp only [hlow, Nat.not_lt.mp hlow, decide_true, if_true, if_false]
    omega

/-- A field at bit 0 of an instruction word is read by `sext` of its width (R83). -/
theorem sextField_lowField {n : Nat} (w : Word) (hn : n ≤ 16) : sextField (lowField n w) = sext n w := by
  rw [sext, BitVec.setWidth_eq_extractLsb' hn, lowField]

/-- Settles O6: the two bit laws and the closed form of `sext`, and the four fields read by it. -/
theorem signExtension : Obligations.SignExtension := by
  refine ⟨fun n v h1 hn => ⟨fun k hk => ?_, fun k hk hk16 => ?_, ?_⟩, fun w => ⟨?_, ?_, ?_, ?_⟩⟩
  · exact getLsbD_sext_of_lt v hk hn
  · exact getLsbD_sext_of_ge v h1 hk hk16
  · exact toNat_sext v hn
  all_goals exact sextField_lowField w (by decide)

end Sys2Proof.Machine
end

section
/-! PROOFS. What an instruction can do, said once (10_state.md R20 to R33): the state its reads leave, the effects there
are, and the instructions the decoder answers. -/

namespace Sys2Proof.Machine

/-! ### The decoder's instructions -/

theorem wellFormed_decodeTrap (v : BitVec 8) : (decodeTrap v).wellFormed = true := by
  rcases decodeTrap_cases v with ⟨_, h⟩ | ⟨_, h⟩ | ⟨_, h⟩ | ⟨_, h⟩ | ⟨_, h⟩ | ⟨_, h⟩ | ⟨hv, h⟩
  case inr.inr.inr.inr.inr.inr => simp [h, Instr.wellFormed, hv]
  all_goals simp [h, Instr.wellFormed]

/-- Every word decodes to a well-formed instruction (R86). -/
theorem wellFormed_decode (w : Word) : (decode w).wellFormed = true := by
  unfold decode
  split
  case h_16 => exact wellFormed_decodeTrap _
  case h_2 | h_5 | h_6 => split <;> rfl
  all_goals rfl

theorem wellFormed_fetchedInstr (s : State) : (fetchedInstr s).wellFormed = true := wellFormed_decode _

/-- An undefined vector does nothing (R150). -/
theorem exec_trap_of_undefined {v : BitVec 8} (s : State) (h : definedVector v = false) :
    exec (.trap v) s = .next s := by
  simp only [exec, execTrap]
  split
  case h_7 => rfl
  all_goals exact absurd h (by decide)

/-- The generic TRAP acts as the row its vector decodes to (R141). -/
theorem exec_trap_eq_decodeTrap (v : BitVec 8) (s : State) : exec (.trap v) s = exec (decodeTrap v) s := by
  rcases decodeTrap_cases v with
    ⟨rfl, h⟩ | ⟨rfl, h⟩ | ⟨rfl, h⟩ | ⟨rfl, h⟩ | ⟨rfl, h⟩ | ⟨rfl, h⟩ | ⟨_, h⟩ <;> rw [h] <;> rfl

/-- Two instructions have the same flag destination, and write the PC, store and read through `MemRead` alike. -/
def MayWriteAlike (i j : Instr) : Prop :=
  flagDest j = flagDest i ∧ writesPc j = writesPc i ∧
    ∀ s, storeAddress j s = storeAddress i s ∧ readAddresses j s = readAddresses i s

theorem mayWriteAlike_decodeTrap (v : BitVec 8) : MayWriteAlike (.trap v) (decodeTrap v) := by
  rcases decodeTrap_cases v with ⟨_, h⟩ | ⟨_, h⟩ | ⟨_, h⟩ | ⟨_, h⟩ | ⟨_, h⟩ | ⟨_, h⟩ | ⟨_, h⟩ <;>
    rw [h] <;> exact ⟨rfl, rfl, fun _ => ⟨rfl, rfl⟩⟩

/-- Whatever an instruction does, a well-formed one that may write no more does too. -/
theorem exists_wellFormed_alike (i : Instr) :
    ∃ j, j.wellFormed = true ∧ MayWriteAlike i j ∧ ∀ s, exec i s = exec j s := by
  cases hw : i.wellFormed with
  | true => exact ⟨i, hw, ⟨rfl, rfl, fun _ => ⟨rfl, rfl⟩⟩, fun _ => rfl⟩
  | false =>
    obtain ⟨v, rfl⟩ : ∃ v, i = .trap v := by cases i <;> simp_all [Instr.wellFormed]
    exact ⟨decodeTrap v, wellFormed_decodeTrap v, mayWriteAlike_decodeTrap v, exec_trap_eq_decodeTrap v⟩

/-! ### The state after an instruction's reads -/

/-- The state after the reads an instruction makes through `MemRead`, in order (R44). -/
def afterReads (i : Instr) (s : State) : State := (readAddresses i s).foldl (fun u a => (memRead a u).2) s

theorem readAddresses_cases (i : Instr) (s : State) :
    readAddresses i s = [] ∨ (∃ a, readAddresses i s = [a]) ∨ ∃ a, readAddresses i s = [a, (memRead a s).1] := by
  cases i
  case ld => exact .inr (.inl ⟨_, rfl⟩)
  case ldr => exact .inr (.inl ⟨_, rfl⟩)
  case sti => exact .inr (.inl ⟨_, rfl⟩)
  case ldi => exact .inr (.inr ⟨_, rfl⟩)
  all_goals exact .inl rfl

/-- KBSR never points to itself: a poll leaves 0x8000 or 0x0000 there, so no instruction polls twice. -/
theorem memRead_kbsr_ne_kbsr (s : State) : (memRead Config.kbsr s).1 ≠ Config.kbsr := by
  cases h : s.input with
  | nil => rw [memRead_kbsr_of_nil s h]; simp [Config.kbsr]
  | cons c rest => rw [memRead_kbsr_of_cons s c rest h]; simp [Config.kbsr]

/-- Everything the reads of an instruction do: nothing, or one poll of the keyboard when KBSR is among them. -/
theorem afterReads_cases (i : Instr) (s : State) :
    afterReads i s = s ∨ (Polls i s ∧ afterReads i s = (memRead Config.kbsr s).2) := by
  rcases readAddresses_cases i s with h | ⟨a, h⟩ | ⟨a, h⟩
  · simp [afterReads, h]
  · by_cases ha : a = Config.kbsr
    · simp [afterReads, Polls, h, ha]
    · simp [afterReads, h, memRead_of_ne a s ha]
  · by_cases ha : a = Config.kbsr
    · subst ha
      simp [afterReads, Polls, h, memRead_of_ne _ _ (memRead_kbsr_ne_kbsr s)]
    · by_cases hc : s.cell a = Config.kbsr
      · simp [afterReads, Polls, h, memRead_of_ne a s ha, hc]
      · simp [afterReads, h, memRead_of_ne a s ha, memRead_of_ne _ s hc]

@[simp] theorem afterReads_reg (i : Instr) (s : State) (r : RegIdx) : (afterReads i s).reg r = s.reg r := by
  rcases afterReads_cases i s with h | ⟨_, h⟩ <;> simp [h]

@[simp] theorem afterReads_pc (i : Instr) (s : State) : (afterReads i s).pc = s.pc := by
  rcases afterReads_cases i s with h | ⟨_, h⟩ <;> simp [h]

@[simp] theorem afterReads_cond (i : Instr) (s : State) : (afterReads i s).cond = s.cond := by
  rcases afterReads_cases i s with h | ⟨_, h⟩ <;> simp [h]

@[simp] theorem afterReads_run (i : Instr) (s : State) : (afterReads i s).run = s.run := by
  rcases afterReads_cases i s with h | ⟨_, h⟩ <;> simp [h]

@[simp] theorem afterReads_output (i : Instr) (s : State) : (afterReads i s).output = s.output := by
  rcases afterReads_cases i s with h | ⟨_, h⟩ <;> simp [h]

@[simp] theorem afterReads_stopReq (i : Instr) (s : State) : (afterReads i s).stopReq = s.stopReq := by
  rcases afterReads_cases i s with h | ⟨_, h⟩ <;> simp [h]

@[simp] theorem afterReads_hold (i : Instr) (s : State) : (afterReads i s).hold = s.hold := by
  rcases afterReads_cases i s with h | ⟨_, h⟩ <;> simp [h]

@[simp] theorem afterReads_hostPlan (i : Instr) (s : State) : (afterReads i s).hostPlan = s.hostPlan := by
  rcases afterReads_cases i s with h | ⟨_, h⟩ <;> simp [h]

theorem afterReads_wf (i : Instr) (s : State) (h : Memory.wf s.mem = true) : Memory.wf (afterReads i s).mem = true := by
  rcases afterReads_cases i s with e | ⟨_, e⟩ <;> rw [e]
  · exact h
  · exact memRead_wf _ s h

/-- The reads change KBSR and KBDR alone, and only by a poll. -/
theorem kbsr_or_kbdr_of_afterReads_cell {i : Instr} {s : State} {a : Word} (h : (afterReads i s).cell a ≠ s.cell a) :
    (a = Config.kbsr ∨ a = Config.kbdr) ∧ Polls i s := by
  rcases afterReads_cases i s with e | ⟨hp, e⟩ <;> rw [e] at h
  · exact absurd rfl h
  · refine ⟨?_, hp⟩
    by_contra hne
    exact h (memRead_cell_of_ne _ a s (fun ha => hne (.inl ha)) (fun ha => hne (.inr ha)))

/-- The reads take at most one character, from the head, and only by a poll. -/
theorem afterReads_input (i : Instr) (s : State) :
    (afterReads i s).input = s.input ∨ (Polls i s ∧ ∃ c, s.input = c :: (afterReads i s).input) := by
  rcases afterReads_cases i s with e | ⟨hp, e⟩ <;> rw [e]
  · exact .inl rfl
  · exact (memRead_input Config.kbsr s).imp_right fun h => ⟨hp, h.2⟩

/-! ### The effects -/

/-- Everything a well-formed instruction can do to the state, each effect with the rows that have it. -/
inductive Effect (i : Instr) (s : State) : State → Prop where
  /-- The destination register and the flag from it, after the reads (R26). -/
  | result (dr : RegIdx) (v : Word) (h : flagDest i = some dr) : Effect i s (writeResult dr v (afterReads i s))
  /-- The store, after the reads (R125 to R127). -/
  | store (a v : Word) (h : storeAddress i s = some a) : Effect i s ((afterReads i s).setCell a v)
  /-- A branch taken, a jump (R111, R112). -/
  | jump (a : Word) (h : writesPc i = true) : Effect i s (s.setPc a)
  /-- A jump with a link (R113, R114). -/
  | link (a : Word) (h : writesPc i = true) (h7 : 7 ∈ writtenRegs i) : Effect i s ((s.setReg 7 s.pc).setPc a)
  /-- A branch not taken, an undefined vector (R111, R150). -/
  | idle : Effect i s s
  /-- The fatal abort (R161, R162). -/
  | abort (h : i = .rti ∨ i = .res) : Effect i s (s.setRun .aborted)
  /-- GETC or IN takes a character (R142, R145). -/
  | take (c : Byte) (rest bs : List Byte) (v : Word) (hin : s.input = c :: rest)
      (h : i = .trapGetc ∧ bs = [] ∨ i = .trapIn) : Effect i s (((putChars bs s).setInput rest).setReg 0 v)
  /-- Bytes written out (R143, R144, R146). -/
  | put (bs : List Byte) (h : writesOutput i = true) : Effect i s (putChars bs s)
  /-- A hold: GETC or IN with no character, a scan that has gone round memory (R149). -/
  | wait (hd : Hold) (bs : List Byte) (h : bs = [] ∨ writesOutput i = true) :
      Effect i s ((putChars bs s).setHold (some hd))
  /-- The notice and the end of the run (R147). -/
  | halt (bs : List Byte) (h : i = .trapHalt) : Effect i s ((putChars bs s).setRun .halted)

theorem effect_branch (n z p : Bool) (off9 : BitVec 9) (s : State) :
    Effect (.br n z p off9) s (if branchTaken n z p s.cond then s.setPc (pcRel9 off9 s) else s) := by
  split
  · exact .jump _ rfl
  · exact .idle

theorem effect_getcTake (s : State) : Effect .trapGetc s (getcTake s) := by
  rcases getcTake_cases s with ⟨_, e⟩ | ⟨c, rest, hin, e⟩ <;> rw [e]
  · simpa using Effect.wait (i := .trapGetc) (s := s) .getc [] (.inl rfl)
  · simpa using Effect.take (i := .trapGetc) c rest [] (zext16 c) hin (.inl ⟨rfl, rfl⟩)

theorem effect_inPrompted (s : State) : Effect .trapIn s (inPrompted s) := by
  rcases inTake_cases (putChars Config.inPrompt s) with ⟨_, e⟩ | ⟨c, rest, hin, e⟩ <;> rw [inPrompted, e]
  · exact .wait .inChar _ (.inr rfl)
  · have echo : putChars [c] ((putChars Config.inPrompt s).setInput rest) =
        (putChars (Config.inPrompt ++ [c]) s).setInput rest := by simp [putChars, State.setInput]
    rw [echo]
    exact .take c rest _ _ hin (.inr rfl)

theorem effect_putString {i : Instr} (kind : ScanKind) (s : State) (h : writesOutput i = true) :
    Effect i s (putString kind s) := by
  obtain ⟨bs, e | e⟩ := putString_cases kind s <;> rw [e]
  · exact .put bs h
  · exact .wait _ bs (.inr h)

/-- Every well-formed instruction completes, with one of the effects. -/
theorem exec_effect (i : Instr) (s : State) (hw : i.wellFormed = true) : ∃ t, exec i s = .next t ∧ Effect i s t := by
  cases i with
  | br n z p off9 => exact ⟨_, rfl, effect_branch n z p off9 s⟩
  | addReg dr | addImm dr | andReg dr | andImm dr | not dr | ld dr | ldi dr | ldr dr | lea dr =>
    exact ⟨_, rfl, .result dr _ rfl⟩
  | st | sti | str => exact ⟨_, rfl, .store _ _ rfl⟩
  | jmp => exact ⟨_, rfl, .jump _ rfl⟩
  | jsr | jsrr => exact ⟨_, rfl, .link _ rfl (List.mem_singleton.mpr rfl)⟩
  | rti => exact ⟨_, rfl, .abort (.inl rfl)⟩
  | res => exact ⟨_, rfl, .abort (.inr rfl)⟩
  | trapGetc => exact ⟨_, rfl, effect_getcTake s⟩
  | trapOut => exact ⟨_, rfl, .put _ rfl⟩
  | trapPuts => exact ⟨_, rfl, effect_putString .puts s rfl⟩
  | trapIn => exact ⟨_, rfl, effect_inPrompted s⟩
  | trapPutsp => exact ⟨_, rfl, effect_putString .putsp s rfl⟩
  | trapHalt => exact ⟨_, rfl, .halt _ rfl⟩
  | trap v => exact ⟨s, exec_trap_of_undefined s (by simpa [Instr.wellFormed] using hw), .idle⟩

end Sys2Proof.Machine
end

section
/-! PROOFS. What each effect changes, field by field, and what a step does to each field (10_state.md R20 to R33). -/

namespace Sys2Proof.Machine

/-! ### The effects, field by field -/

section
variable {i : Instr} {s t : State}

theorem Effect.pc_eq (h : Effect i s t) (hp : writesPc i = false) : t.pc = s.pc := by
  cases h with
  | jump _ h => simp [h] at hp
  | link _ h => simp [h] at hp
  | _ => simp

theorem Effect.cond_eq (h : Effect i s t) (hf : flagDest i = none) : t.cond = s.cond := by
  cases h with
  | result dr v h => simp [h] at hf
  | _ => simp

theorem mem_writtenRegs_of_flagDest {dr : RegIdx} (h : flagDest i = some dr) : dr ∈ writtenRegs i := by
  cases i <;> simp_all [flagDest, writtenRegs]

theorem Effect.reg_eq_or_written (h : Effect i s t) (r : RegIdx) : t.reg r = s.reg r ∨ r ∈ writtenRegs i := by
  cases h with
  | result dr v hd =>
    by_cases hr : r = dr
    · exact .inr (hr ▸ mem_writtenRegs_of_flagDest hd)
    · simp [hr]
  | link a _ h7 =>
    by_cases hr : r = 7
    · exact .inr (hr ▸ h7)
    · simp [hr]
  | take c rest bs v _ hi =>
    rcases hi with ⟨rfl, _⟩ | rfl <;> by_cases hr : r = 0 <;> simp [hr, writtenRegs]
  | _ => simp

theorem Effect.cell_cases (h : Effect i s t) {a : Word} (ha : t.cell a ≠ s.cell a) :
    storeAddress i s = some a ∨ ((a = Config.kbsr ∨ a = Config.kbdr) ∧ Polls i s) := by
  cases h with
  | result dr v _ => exact .inr (kbsr_or_kbdr_of_afterReads_cell (by simpa using ha))
  | store b v hb =>
    by_cases hab : a = b
    · exact .inl (hab ▸ hb)
    · exact .inr (kbsr_or_kbdr_of_afterReads_cell (by simpa [hab] using ha))
  | _ => simp at ha

theorem Effect.input_cases (h : Effect i s t) :
    t.input = s.input ∨ ((∃ c, s.input = c :: t.input) ∧ (i = .trapGetc ∨ i = .trapIn ∨ Polls i s)) := by
  have reads : (afterReads i s).input = s.input ∨
      ((∃ c, s.input = c :: (afterReads i s).input) ∧ (i = .trapGetc ∨ i = .trapIn ∨ Polls i s)) :=
    (afterReads_input i s).imp_right fun ⟨hp, hc⟩ => ⟨hc, .inr (.inr hp)⟩
  cases h with
  | result => exact reads
  | store => exact reads
  | take c rest bs v hin hi => exact .inr ⟨⟨c, hin⟩, hi.imp And.left .inl⟩
  | _ => exact .inl rfl

theorem Effect.output_append (h : Effect i s t) :
    ∃ bs, t.output = s.output ++ bs ∧ (bs = [] ∨ writesOutput i = true) := by
  cases h with
  | take c rest bs v _ hi =>
    refine ⟨bs, rfl, ?_⟩
    rcases hi with ⟨_, hbs⟩ | rfl
    · exact .inl hbs
    · exact .inr rfl
  | put bs h => exact ⟨bs, rfl, .inr h⟩
  | wait hd bs h => exact ⟨bs, rfl, h⟩
  | halt bs h => exact ⟨bs, rfl, .inr (h ▸ rfl)⟩
  | _ => exact ⟨[], by simp, .inl rfl⟩

theorem Effect.stopReq_eq (h : Effect i s t) : t.stopReq = s.stopReq := by
  cases h <;> simp

theorem Effect.hostPlan_eq (h : Effect i s t) : t.hostPlan = s.hostPlan := by
  cases h <;> simp

theorem Effect.run_cases (h : Effect i s t) :
    t.run = s.run ∨ (t.run = .aborted ∧ (i = .rti ∨ i = .res)) ∨ (t.run = .halted ∧ i = .trapHalt) := by
  cases h with
  | abort h => exact .inr (.inl ⟨rfl, h⟩)
  | halt bs h => exact .inr (.inr ⟨rfl, h⟩)
  | _ => simp

/-- No instruction both enters a hold and changes the run state. -/
theorem Effect.hold_or_run_eq (h : Effect i s t) : t.hold = s.hold ∨ t.run = s.run := by
  cases h <;> simp

theorem Effect.mem_wf (h : Effect i s t) (hs : Memory.wf s.mem = true) : Memory.wf t.mem = true := by
  cases h with
  | result => exact afterReads_wf i s hs
  | store a v => exact Memory.wf_write _ a v (afterReads_wf i s hs)
  | _ => exact hs

end

/-! ### The step -/

/-- The fetch changes no field but memory, the input source and the PC. -/
theorem fetch_frame (s : State) :
    (fetch s).2.cond = s.cond ∧ (fetch s).2.run = s.run ∧ (fetch s).2.output = s.output ∧
    (fetch s).2.stopReq = s.stopReq ∧ (fetch s).2.hold = s.hold ∧ (fetch s).2.hostPlan = s.hostPlan := by
  simp [fetch_eq]

theorem fetch_wf (s : State) (h : Memory.wf s.mem = true) : Memory.wf (fetch s).2.mem = true := by
  rw [fetch_eq]
  exact memRead_wf _ s h

theorem hostTurn_stopReq_of_set (s : State) (h : s.stopReq = true) : (hostTurn s).stopReq = true := by
  obtain ⟨_, _, e⟩ := hostTurn_spec s
  simp [e, h]

/-- Going on with a held instruction appends to the output sink. -/
theorem resumeHold_output (h : Hold) (s : State) : ∃ bs, (resumeHold h s).output = s.output ++ bs := by
  cases h with
  | getc =>
    refine ⟨[], ?_⟩
    simp only [resumeHold]
    split
    · simp
    · rcases getcTake_cases (s.setHold none) with ⟨_, e⟩ | ⟨_, _, _, e⟩ <;> simp [e]
  | inChar =>
    simp only [resumeHold]
    split
    · exact ⟨[], by simp⟩
    · rcases inTake_cases (s.setHold none) with ⟨_, e⟩ | ⟨c, _, _, e⟩
      · exact ⟨[], by simp [e]⟩
      · exact ⟨[c], by simp [e]⟩
  | scan kind a =>
    obtain ⟨bs, e | e⟩ := scanFrom_raw_cases kind a (s.setHold none) <;>
      exact ⟨bs, by simp [resumeHold, Config.trapScanIntercepted, e]⟩

/-- Everything a step can be, with the instruction's effect in place of its meaning. -/
theorem step_effect {s t : State} (h : step s = .next t) :
    s.run = .running ∧
    ((∃ hd, s.hold = some hd ∧ t = resumeHold hd (hostTurn s)) ∨
     (s.hold = none ∧ (hostTurn s).stopReq = true ∧ t = (hostTurn s).setRun .stopped) ∨
     (s.Fetches ∧ Effect (fetchedInstr s) (fetch (hostTurn s)).2 t)) := by
  obtain ⟨hr, hd | hs | ⟨hf, he⟩⟩ := step_cases h
  · exact ⟨hr, .inl hd⟩
  · exact ⟨hr, .inr (.inl hs)⟩
  · obtain ⟨u, hu, eff⟩ := exec_effect (fetchedInstr s) (fetch (hostTurn s)).2 (wellFormed_fetchedInstr s)
    cases hu.symm.trans he
    exact ⟨hr, .inr (.inr ⟨hf, eff⟩)⟩

theorem step_stopReq {s t : State} (h : step s = .next t) : t.stopReq = (hostTurn s).stopReq := by
  obtain ⟨_, ⟨hd, _, rfl⟩ | ⟨_, _, rfl⟩ | ⟨_, eff⟩⟩ := step_effect h
  · obtain ⟨_, _, hstop, _⟩ := resumeHold_frame hd (hostTurn s)
    exact hstop
  · rfl
  · obtain ⟨_, _, _, hstop, _⟩ := fetch_frame (hostTurn s)
    exact eff.stopReq_eq.trans hstop

theorem step_hostPlan {s t : State} (h : step s = .next t) : t.hostPlan = s.hostPlan.tail := by
  rw [← hostTurn_hostPlan s]
  obtain ⟨_, ⟨hd, _, rfl⟩ | ⟨_, _, rfl⟩ | ⟨_, eff⟩⟩ := step_effect h
  · obtain ⟨_, _, _, hplan, _⟩ := resumeHold_frame hd (hostTurn s)
    exact hplan
  · rfl
  · obtain ⟨_, _, _, _, _, hplan⟩ := fetch_frame (hostTurn s)
    exact eff.hostPlan_eq.trans hplan

theorem step_output {s t : State} (h : step s = .next t) : ∃ bs, t.output = s.output ++ bs := by
  rw [← hostTurn_output s]
  obtain ⟨_, ⟨hd, _, rfl⟩ | ⟨_, _, rfl⟩ | ⟨_, eff⟩⟩ := step_effect h
  · exact resumeHold_output hd (hostTurn s)
  · exact ⟨[], by simp⟩
  · obtain ⟨_, _, hout, _⟩ := fetch_frame (hostTurn s)
    obtain ⟨bs, hbs, _⟩ := eff.output_append
    exact ⟨bs, by rw [hbs, hout]⟩

/-- A step that changes the flag is the fetch of an instruction with a flag destination. -/
theorem step_cond {s t : State} (h : step s = .next t) (hc : t.cond ≠ s.cond) :
    s.Fetches ∧ flagDest (fetchedInstr s) ≠ none := by
  rw [← hostTurn_cond s] at hc
  obtain ⟨_, ⟨hd, _, rfl⟩ | ⟨_, _, rfl⟩ | ⟨hf, eff⟩⟩ := step_effect h
  · obtain ⟨_, hcond, _⟩ := resumeHold_frame hd (hostTurn s)
    exact absurd hcond hc
  · exact absurd rfl hc
  · obtain ⟨hcond, _⟩ := fetch_frame (hostTurn s)
    exact ⟨hf, fun hn => hc ((eff.cond_eq hn).trans hcond)⟩

/-- The run state after a step: RUNNING still, STOPPED by the stop request, ABORTED by a reserved opcode, or HALTED by
TRAP HALT. -/
theorem step_run_cases {s t : State} (h : step s = .next t) :
    t.run = .running ∨ (t.run = .stopped ∧ (hostTurn s).stopReq = true) ∨
    (t.run = .aborted ∧ s.Fetches ∧ (fetchedInstr s = .rti ∨ fetchedInstr s = .res)) ∨
    (t.run = .halted ∧ s.Fetches ∧ fetchedInstr s = .trapHalt) := by
  obtain ⟨hr, ⟨hd, _, rfl⟩ | ⟨_, hstop, rfl⟩ | ⟨hf, eff⟩⟩ := step_effect h
  · obtain ⟨_, _, _, _, hrun | ⟨hstop, hrun, _⟩⟩ := resumeHold_frame hd (hostTurn s)
    · exact .inl (by rw [hrun, hostTurn_run, hr])
    · exact .inr (.inl ⟨hrun, hstop⟩)
  · exact .inr (.inl ⟨rfl, hstop⟩)
  · obtain ⟨_, hfetch, _⟩ := fetch_frame (hostTurn s)
    obtain hrun | ⟨hrun, hi⟩ | ⟨hrun, hi⟩ := eff.run_cases
    · exact .inl (by rw [hrun, hfetch, hostTurn_run, hr])
    · exact .inr (.inr (.inl ⟨hrun, hf, hi⟩))
    · exact .inr (.inr (.inr ⟨hrun, hf, hi⟩))

theorem step_mem_wf {s t : State} (h : step s = .next t) (hs : Memory.wf s.mem = true) : Memory.wf t.mem = true := by
  rw [← hostTurn_mem s] at hs
  obtain ⟨_, ⟨hd, _, rfl⟩ | ⟨_, _, rfl⟩ | ⟨_, eff⟩⟩ := step_effect h
  · obtain ⟨hmem, _⟩ := resumeHold_frame hd (hostTurn s)
    exact hmem ▸ hs
  · exact hs
  · exact eff.mem_wf (fetch_wf _ hs)

/-- After a step that leaves RUNNING nothing is held. -/
theorem step_hold {s t : State} (h : step s = .next t) : t.hold = none ∨ t.run = .running := by
  obtain ⟨hr, ⟨hd, _, rfl⟩ | ⟨hn, _, rfl⟩ | ⟨⟨_, hn, _⟩, eff⟩⟩ := step_effect h
  · obtain ⟨_, _, _, _, hrun | ⟨_, _, hhold⟩⟩ := resumeHold_frame hd (hostTurn s)
    · exact .inr (by rw [hrun, hostTurn_run, hr])
    · exact .inl hhold
  · exact .inl (by simpa using hn)
  · obtain ⟨_, hfrun, _, _, hfhold, _⟩ := fetch_frame (hostTurn s)
    exact eff.hold_or_run_eq.imp (fun e => by rw [e, hfhold, hostTurn_hold, hn])
      (fun e => by rw [e, hfrun, hostTurn_run, hr])

end Sys2Proof.Machine
end

section
/-! PROOFS. The state family's statements (10_state.md R20 to R33), from the effects and the step's fields. -/

namespace Sys2Proof.Machine

/-- Settles O55: memory and hold, each by what a step does to it. -/
theorem stepKeepsInvariant : Obligations.StepKeepsInvariant := by
  rintro s t ⟨hmem, _⟩ h
  exact ⟨step_mem_wf h hmem, fun hhold => (step_hold h).resolve_left hhold⟩

/-- An instruction with a flag destination ends by writing its result there. -/
theorem exec_of_flagDest {i : Instr} {dr : RegIdx} (s : State) (h : flagDest i = some dr) :
    ∃ v, exec i s = .next (writeResult dr v (afterReads i s)) := by
  cases i with
  | addReg | addImm | andReg | andImm | not | ld | ldi | ldr | lea =>
    cases h
    exact ⟨_, rfl⟩
  | _ => cases h

/-- Settles O45: the seven by their common end, the others by their effects, the step by its inversion. -/
theorem onlySevenInstructionsWriteFlag : Obligations.OnlySevenInstructionsWriteFlag := by
  refine ⟨fun i s dr hd => ?_, fun i s hn => ?_, fun s t h hc => step_cond h hc⟩
  · obtain ⟨v, hv⟩ := exec_of_flagDest s hd
    exact ⟨_, hv, by simpa using flagOf_condOf v⟩
  · obtain ⟨j, hw, ⟨hflag, _⟩, hexec⟩ := exists_wellFormed_alike i
    obtain ⟨t, ht, eff⟩ := exec_effect j s hw
    exact ⟨t, (hexec s).trans ht, eff.cond_eq (hflag.trans hn)⟩

/-- Settles O46: each run state a step can end in has one cause. -/
theorem runStateTransitions : Obligations.RunStateTransitions := by
  intro s t h
  obtain ⟨hr, _⟩ := step_cases h
  have hterm := step_of_terminal t
  obtain e | ⟨e, hc⟩ | ⟨e, hc⟩ | ⟨e, hc⟩ := step_run_cases h <;> rw [e] at hterm ⊢
  · exact ⟨hr, nofun, nofun, nofun, hterm⟩
  · exact ⟨hr, nofun, nofun, fun _ => hc, hterm⟩
  · exact ⟨hr, nofun, fun _ => hc, nofun, hterm⟩
  · exact ⟨hr, fun _ => hc, nofun, nofun, hterm⟩

/-- Settles O47, by the registers each effect writes. -/
theorem registersWritten : Obligations.RegistersWritten := by
  intro i s hw
  obtain ⟨t, ht, eff⟩ := exec_effect i s hw
  exact ⟨t, ht, fun r hr => (eff.reg_eq_or_written r).resolve_left hr⟩

/-- Settles O48, by the effects that write the PC. -/
theorem onlyControlTransferWritesPc : Obligations.OnlyControlTransferWritesPc := by
  intro i s hp
  obtain ⟨j, hw, ⟨_, hpc, _⟩, hexec⟩ := exists_wellFormed_alike i
  obtain ⟨t, ht, eff⟩ := exec_effect j s hw
  exact ⟨t, (hexec s).trans ht, eff.pc_eq (hpc.trans hp)⟩

/-- Settles O49, by the cells each effect writes. -/
theorem cellsWritten : Obligations.CellsWritten := by
  intro i s
  obtain ⟨j, hw, ⟨_, _, haddr⟩, hexec⟩ := exists_wellFormed_alike i
  obtain ⟨hstore, hreads⟩ := haddr s
  obtain ⟨t, ht, eff⟩ := exec_effect j s hw
  refine ⟨t, (hexec s).trans ht, fun a ha => ?_⟩
  rw [← hstore, Polls, ← hreads]
  exact eff.cell_cases ha

/-- Settles O50, by what each effect takes. -/
theorem inputTakenFromHead : Obligations.InputTakenFromHead := by
  intro i s hw
  obtain ⟨t, ht, eff⟩ := exec_effect i s hw
  exact ⟨t, ht, eff.input_cases⟩

/-- Settles O51, by what a step and each effect append. -/
theorem outputOnlyGrows : Obligations.OutputOnlyGrows := by
  refine ⟨fun s t h => step_output h, fun i s hw => ?_⟩
  obtain ⟨t, ht, eff⟩ := exec_effect i s hw
  obtain ⟨bs, hout, hbs⟩ := eff.output_append
  exact ⟨t, ht, hbs.imp_left fun e => by simp [hout, e]⟩

/-- Settles O53: no effect and no hold touches the request, and the host's turn never clears it. -/
theorem stopRequestIsTheHosts : Obligations.StopRequestIsTheHosts := by
  refine ⟨fun i s => ?_, fun s t h => ⟨step_stopReq h, fun hs => ?_⟩⟩
  · obtain ⟨j, hw, _, hexec⟩ := exists_wellFormed_alike i
    obtain ⟨t, ht, eff⟩ := exec_effect j s hw
    exact ⟨t, (hexec s).trans ht, eff.stopReq_eq⟩
  · rw [step_stopReq h, hostTurn_stopReq_of_set s hs]

/-- The host's turn with a plan: the actions of its first entry. -/
theorem hostTurn_of_cons (s : State) (acts : List HostAction) (plan : List (List HostAction))
    (h : s.hostPlan = acts :: plan) :
    hostTurn s =
      { s with input := s.input ++ suppliedBytes acts,
               stopReq := s.stopReq || decide (HostAction.requestStop ∈ acts), hostPlan := plan } := by
  simp only [hostTurn, h, hostActs_spec]

/-- Settles O54: the turn by its plan, the step by its inversion. -/
theorem hostTurnSuppliesAndStops : Obligations.HostTurnSuppliesAndStops := by
  refine ⟨hostTurn_of_nil, fun s acts plan h => ?_, fun s t h => step_hostPlan h⟩
  have e := hostTurn_of_cons s acts plan h
  exact ⟨by simp [e], by simp [e], by simp [e], hostTurn_reg s, hostTurn_pc s, hostTurn_cond s, hostTurn_cell s,
    hostTurn_output s, hostTurn_run s, hostTurn_hold s⟩

/-- Settles O42: the three ways a step begins. -/
theorem stepRunsDecodedInstruction : Obligations.StepRunsDecodedInstruction := by
  refine ⟨step_of_terminal, step_of_stop, fun s i hf hi => ?_⟩
  rw [step_of_fetches s hf, fetchedInstr, fetch_eq, hostTurn_pc, hi]

end Sys2Proof.Machine
end

section
/-! PROOFS. Nothing reads the output sink (10_state.md R32): what an operation does to a state with its sink erased is
what it does to the state, the sink erased after it. -/

namespace Sys2Proof.Machine

/-- The state with an empty output sink. -/
def State.eraseOutput (s : State) : State := { s with output := [] }

section
variable (s : State)

@[simp] theorem State.eraseOutput_eraseOutput : s.eraseOutput.eraseOutput = s.eraseOutput := rfl
@[simp] theorem State.reg_eraseOutput (r : RegIdx) : s.eraseOutput.reg r = s.reg r := rfl
@[simp] theorem State.cell_eraseOutput (a : Word) : s.eraseOutput.cell a = s.cell a := rfl
@[simp] theorem State.pc_eraseOutput : s.eraseOutput.pc = s.pc := rfl
@[simp] theorem State.cond_eraseOutput : s.eraseOutput.cond = s.cond := rfl
@[simp] theorem State.input_eraseOutput : s.eraseOutput.input = s.input := rfl
@[simp] theorem State.stopReq_eraseOutput : s.eraseOutput.stopReq = s.stopReq := rfl

/-! An update of another field is the same before and after the sink is erased; appending to the sink is lost. -/

@[simp] theorem State.eraseOutput_setReg (r : RegIdx) (v : Word) :
    (s.setReg r v).eraseOutput = s.eraseOutput.setReg r v := rfl
@[simp] theorem State.eraseOutput_setPc (a : Word) : (s.setPc a).eraseOutput = s.eraseOutput.setPc a := rfl
@[simp] theorem State.eraseOutput_setRun (r : RunState) : (s.setRun r).eraseOutput = s.eraseOutput.setRun r := rfl
@[simp] theorem State.eraseOutput_setCell (a v : Word) : (s.setCell a v).eraseOutput = s.eraseOutput.setCell a v := rfl
@[simp] theorem State.eraseOutput_setInput (q : List Byte) :
    (s.setInput q).eraseOutput = s.eraseOutput.setInput q := rfl
@[simp] theorem State.eraseOutput_setHold (h : Option Hold) :
    (s.setHold h).eraseOutput = s.eraseOutput.setHold h := rfl
@[simp] theorem State.eraseOutput_writeResult (dr : RegIdx) (v : Word) :
    (writeResult dr v s).eraseOutput = writeResult dr v s.eraseOutput := rfl
@[simp] theorem State.eraseOutput_putChars (bs : List Byte) : (putChars bs s).eraseOutput = s.eraseOutput := rfl

/-! ### The shared operations -/

@[simp] theorem pcRel9_eraseOutput (off9 : BitVec 9) : pcRel9 off9 s.eraseOutput = pcRel9 off9 s := rfl
@[simp] theorem baseOff6_eraseOutput (r : RegIdx) (off6 : BitVec 6) :
    baseOff6 r off6 s.eraseOutput = baseOff6 r off6 s := rfl

@[simp] theorem memRead_eraseOutput (a : Word) :
    memRead a s.eraseOutput = ((memRead a s).1, (memRead a s).2.eraseOutput) := by
  obtain ⟨ha, e⟩ | ⟨rfl, hin, e⟩ | ⟨c, rest, rfl, hin, e⟩ := memRead_cases a s <;> rw [e]
  · exact memRead_of_ne a _ ha
  · exact memRead_kbsr_of_nil _ hin
  · exact memRead_kbsr_of_cons _ c rest hin

@[simp] theorem fetch_eraseOutput : fetch s.eraseOutput = ((fetch s).1, (fetch s).2.eraseOutput) := by
  simp [fetch_eq]

@[simp] theorem hostTurn_eraseOutput : hostTurn s.eraseOutput = (hostTurn s).eraseOutput := by
  cases h : s.hostPlan with
  | nil => rw [hostTurn_of_nil s h, hostTurn_of_nil s.eraseOutput h]
  | cons acts plan =>
    rw [hostTurn_of_cons s acts plan h, hostTurn_of_cons s.eraseOutput acts plan h]
    rfl

/-! ### The trap routines -/

@[simp] theorem eraseOutput_getcTake : (getcTake s.eraseOutput).eraseOutput = (getcTake s).eraseOutput := by
  cases h : s.input <;> simp [getcTake, readChar, h]

@[simp] theorem eraseOutput_inTake : (inTake s.eraseOutput).eraseOutput = (inTake s).eraseOutput := by
  cases h : s.input <;> simp [inTake, readChar, h]

/-- A scan reads memory alone, so it ends or is held alike. -/
@[simp] theorem eraseOutput_scanFrom (kind : ScanKind) (a : Word) :
    (scanFrom false kind a s.eraseOutput).eraseOutput = (scanFrom false kind a s).eraseOutput := by
  by_cases h : ∃ b, s.cell b = 0
  · obtain ⟨b, hb⟩ := h
    obtain ⟨n, hn⟩ := stringAt_of_zero s a b hb
    rw [scanFrom_string kind a n s hn, scanFrom_string kind a n s.eraseOutput hn]
    simp
  · have hne : ∀ b, s.cell b ≠ 0 := fun b hb => h ⟨b, hb⟩
    rw [scanFrom_nonzero kind a s hne, scanFrom_nonzero kind a s.eraseOutput hne]
    simp

@[simp] theorem eraseOutput_putString (kind : ScanKind) :
    (putString kind s.eraseOutput).eraseOutput = (putString kind s).eraseOutput := by
  simp [putString_eq]

/-- The prompt is lost with the sink, so IN reads on alike. -/
theorem eraseOutput_inPrompted : (inPrompted s.eraseOutput).eraseOutput = (inPrompted s).eraseOutput := by
  rw [inPrompted, inPrompted, ← eraseOutput_inTake, ← eraseOutput_inTake (putChars _ s)]
  simp

theorem eraseOutput_resumeHold (h : Hold) :
    (resumeHold h s.eraseOutput).eraseOutput = (resumeHold h s).eraseOutput := by
  cases h with
  | getc =>
    have take := eraseOutput_getcTake (s.setHold none)
    cases hs : s.stopReq
    · simpa [resumeHold, hs] using take
    · simp [resumeHold, hs]
  | inChar =>
    have take := eraseOutput_inTake (s.setHold none)
    cases hs : s.stopReq
    · simpa [resumeHold, hs] using take
    · simp [resumeHold, hs]
  | scan kind a => exact eraseOutput_scanFrom (s.setHold none) kind a

/-! ### The instructions and the step -/

/-- Every instruction does to the state with its sink erased what it does to the state. -/
theorem exec_eraseOutput (i : Instr) (hw : i.wellFormed = true) :
    ∃ t u, exec i s = .next t ∧ exec i s.eraseOutput = .next u ∧ u.eraseOutput = t.eraseOutput := by
  cases i with
  | br n z p off9 =>
    refine ⟨_, _, rfl, rfl, ?_⟩
    cases hb : branchTaken n z p s.cond <;> simp [hb]
  | addReg | addImm | andReg | andImm | not | lea | st | str | jmp | jsr | jsrr | rti | res | trapOut | trapHalt =>
    exact ⟨_, _, rfl, rfl, rfl⟩
  | ld | ldi | ldr | sti => exact ⟨_, _, rfl, rfl, by simp⟩
  | trapGetc => exact ⟨_, _, rfl, rfl, eraseOutput_getcTake s⟩
  | trapIn => exact ⟨_, _, rfl, rfl, eraseOutput_inPrompted s⟩
  | trapPuts => exact ⟨_, _, rfl, rfl, eraseOutput_putString s .puts⟩
  | trapPutsp => exact ⟨_, _, rfl, rfl, eraseOutput_putString s .putsp⟩
  | trap v =>
    have hv : definedVector v = false := by simpa [Instr.wellFormed] using hw
    exact ⟨s, _, exec_trap_of_undefined s hv, exec_trap_of_undefined _ hv, rfl⟩

/-- A running machine steps, and so does it with its sink erased, to states that are the same with theirs erased. -/
theorem step_eraseOutput (hr : s.run = .running) :
    ∃ t u, step s = .next t ∧ step s.eraseOutput = .next u ∧ u.eraseOutput = t.eraseOutput := by
  cases hh : s.hold with
  | some hd =>
    refine ⟨_, _, step_of_held s hd hr hh, step_of_held s.eraseOutput hd hr hh, ?_⟩
    rw [hostTurn_eraseOutput, eraseOutput_resumeHold]
  | none =>
    have hturn := hostTurn_eraseOutput s
    cases hs : (hostTurn s).stopReq with
    | true =>
      refine ⟨_, _, step_of_stop s hr hh hs, step_of_stop s.eraseOutput hr hh (by simpa [hturn] using hs), ?_⟩
      simp
    | false =>
      rw [step_of_fetches s ⟨hr, hh, hs⟩, step_of_fetches s.eraseOutput ⟨hr, hh, by simpa [hturn] using hs⟩,
        fetchedInstr, fetchedInstr, hturn, fetch_eraseOutput]
      exact exec_eraseOutput _ _ (wellFormed_decode _)

end

/-- Settles O52: both states step as the one with the sink erased does. -/
theorem outputIsUnobservable : Obligations.OutputIsUnobservable := by
  intro s t o h
  obtain ⟨hr, _⟩ := step_cases h
  obtain ⟨t₁, u, ht₁, hu, e₁⟩ := step_eraseOutput s hr
  obtain ⟨t', u', ht', hu', e'⟩ := step_eraseOutput { s with output := o } hr
  cases ht₁.symm.trans h
  cases hu.symm.trans hu'
  exact ⟨t', ht', e'.symm.trans e₁⟩

end Sys2Proof.Machine
end

section
/-! PROOFS. Memory access (20_memory.md R45, R47, R54): the intercepted read, the plain store, and the fetch as a read
of KBSR or of any other cell. -/

namespace Sys2Proof.Machine

/-! ### `MemRead` and `MemWrite` -/

/-- The value `MemRead` returns is the cell as the read leaves it, a poll included (R45, R46). -/
theorem memRead_fst_eq_cell (a : Word) (s : State) : (memRead a s).1 = (memRead a s).2.cell a := rfl

/-- `MemRead` changes no field but memory and the input source. -/
theorem memRead_frame (a : Word) (s : State) :
    RegsSame s (memRead a s).2 ∧ (memRead a s).2.pc = s.pc ∧ (memRead a s).2.cond = s.cond ∧
    (memRead a s).2.output = s.output ∧ StatusSame s (memRead a s).2 :=
  ⟨memRead_reg a s, memRead_pc a s, memRead_cond a s, memRead_output a s,
    memRead_run a s, memRead_hold a s, memRead_stopReq a s, memRead_hostPlan a s⟩

/-- Settles O19: a read of another address, a poll without a character, a poll with one. -/
theorem interceptedRead : Obligations.InterceptedRead := by
  intro a s
  refine ⟨memRead_of_ne a s, memRead_fst_eq_cell a s, memRead_frame a s, ?_, ?_⟩
  · rintro rfl hin
    rw [memRead_kbsr_of_nil s hin]
    exact ⟨rfl, hin, fun b hb => by simp [hb]⟩
  · rintro c rest rfl hin
    rw [memRead_kbsr_of_cons s c rest hin]
    exact ⟨rfl, by simp [zext16], rfl, fun b hb hb' => by simp [hb, hb']⟩

/-- Settles O20: the cell by the read-after-write law, every other field by the store's frame. -/
theorem plainStore : Obligations.PlainStore := by
  intro a v s
  exact ⟨by simp, fun b hb => by simp [hb], State.reg_setCell s a v, rfl, rfl, ⟨rfl, rfl⟩, rfl, rfl, rfl, rfl⟩

/-! ### The fetch -/

/-- Away from KBSR the instruction fetched is the one in the cell at the PC. -/
theorem fetchedInstr_of_pc_ne_kbsr (s : State) (h : s.pc ≠ Config.kbsr) : fetchedInstr s = decode (s.cell s.pc) := by
  rw [fetchedInstr, fetch_eq, hostTurn_pc, memRead_of_ne _ _ h, hostTurn_cell]

/-- A branch whose mask is empty does nothing (R85, R111). -/
theorem exec_br_of_empty_mask (off9 : BitVec 9) (s : State) : exec (.br false false false off9) s = .next s := by
  have untaken : ¬ branchTaken false false false s.cond = true := by simp [branchTaken_iff]
  rw [exec, execBr, if_neg untaken]

/-- A step at KBSR runs the word the poll puts there, with the PC already at 0xFE01 (R23, R54). -/
theorem step_at_kbsr (s : State) (hf : s.Fetches) (hpc : s.pc = Config.kbsr) :
    step s = exec (decode (memRead Config.kbsr (hostTurn s)).1)
      ((memRead Config.kbsr (hostTurn s)).2.setPc 0xFE01#16) := by
  obtain ⟨_, _, hstep⟩ := stepRunsDecodedInstruction
  rw [hstep s _ hf rfl, hpc]
  rfl

/-- With no character the step at KBSR executes 0x0000, a branch that is never taken (R54, R85). -/
theorem step_at_kbsr_of_nil (s : State) (hf : s.Fetches) (hpc : s.pc = Config.kbsr) (hin : (hostTurn s).input = []) :
    step s = .next (((hostTurn s).setCell Config.kbsr 0x0000#16).setPc 0xFE01#16) := by
  have nop : decode 0x0000#16 = .br false false false 0#9 := by decide
  rw [step_at_kbsr s hf hpc, memRead_kbsr_of_nil _ hin, nop, exec_br_of_empty_mask]

/-- With a character the step at KBSR latches it and executes 0x8000, RTI, which aborts (R54, R161). -/
theorem step_at_kbsr_of_cons (s : State) (c : Byte) (rest : List Byte) (hf : s.Fetches) (hpc : s.pc = Config.kbsr)
    (hin : (hostTurn s).input = c :: rest) :
    step s = .next ((((((hostTurn s).setInput rest).setCell Config.kbsr 0x8000#16).setCell Config.kbdr
      (zext16 c)).setPc 0xFE01#16).setRun .aborted) := by
  have rti : decode 0x8000#16 = .rti := by decide
  rw [step_at_kbsr s hf hpc, memRead_kbsr_of_cons _ c rest hin, rti]
  rfl

/-- Settles O43: the fetch from KBSR by whether a character is pending, any other as a read of the cell just stored. -/
theorem fetchIsIntercepted : Obligations.FetchIsIntercepted := by
  refine ⟨fun s hf hpc => ?_, fun a v s ha _ => ?_⟩
  · have ⟨hrun, _⟩ := hf
    cases hin : (hostTurn s).input with
    | nil => exact ⟨_, step_at_kbsr_of_nil s hf hpc hin, rfl, fun _ => by simp [hrun], nofun⟩
    | cons c rest =>
      refine ⟨_, step_at_kbsr_of_cons s c rest hf hpc hin, rfl, nofun, ?_⟩
      rintro _ _ ⟨⟩
      exact ⟨rfl, by simp [kbsr_ne_kbdr], by simp [zext16], rfl⟩
  · rw [fetchedInstr_of_pc_ne_kbsr _ ha]
    simp

end Sys2Proof.Machine
end

section
/-! PROOFS. Decoding an encoded instruction (30_encoding.md R72 to R81): each field of the word is the operand put
there, and the opcode and the mode bit select the instruction's own row. -/

namespace Sys2Proof

/-! ### The opcode number of an instruction -/

/-- The opcode number R82 gives each instruction form. -/
def Instr.opcode : Instr → BitVec 4
  | .br _ _ _ _ => 0x0#4
  | .addReg _ _ _ | .addImm _ _ _ => 0x1#4
  | .ld _ _ => 0x2#4
  | .st _ _ => 0x3#4
  | .jsr _ | .jsrr _ => 0x4#4
  | .andReg _ _ _ | .andImm _ _ _ => 0x5#4
  | .ldr _ _ _ => 0x6#4
  | .str _ _ _ => 0x7#4
  | .rti => 0x8#4
  | .not _ _ => 0x9#4
  | .ldi _ _ => 0xA#4
  | .sti _ _ => 0xB#4
  | .jmp _ => 0xC#4
  | .res => 0xD#4
  | .lea _ _ => 0xE#4
  | .trapGetc | .trapOut | .trapPuts | .trapIn | .trapPutsp | .trapHalt | .trap _ => 0xF#4

theorem opcodeOf_row_pattern (i : Instr) : opcodeOf i.row.pattern = i.opcode := by
  cases i <;> simp [Instr.row, opcodeOf, Instr.opcode]

theorem opcodeOf_eq_opcode_decode (w : Word) : opcodeOf w = (decode w).opcode := by
  rw [opcodeOf_eq_row, opcodeOf_row_pattern]

open Laws.EncodeOpcode in
theorem opcodeOf_encode (i : Instr) : opcodeOf (encode i) = i.opcode := by
  rw [← opcodeOf_row_pattern]
  cases i
  exacts [br _ _ _ _, addReg _ _ _, addImm _ _ _, ld _ _, st _ _, jsr _, jsrr _, andReg _ _ _, andImm _ _ _, ldr _ _ _,
    str _ _ _, rti, not _ _, ldi _ _, sti _ _, jmp _, res, lea _ _, trapGetc, trapOut, trapPuts, trapIn, trapPutsp,
    trapHalt, trap _]

/-! ### The fields of a word put together with `fieldAt` -/

@[simp] theorem lowField_or (n : Nat) (x y : Word) : lowField n (x ||| y) = lowField n x ||| lowField n y :=
  extractLsb'_or_word 0 n x y

@[simp] theorem lowField_fieldAt_zero {n : Nat} (f : BitVec n) (h : n ≤ 16) : lowField n (fieldAt f 0) = f :=
  extractLsb'_fieldAt_same f 0 (by omega)

@[simp] theorem lowField_fieldAt_of_le {n k : Nat} (f : BitVec n) (lo : Nat) (h : k ≤ lo) :
    lowField k (fieldAt f lo) = 0#k :=
  extractLsb'_fieldAt_apart f lo 0 k (.inl (by omega))

/-! ### Decoding the word of an instruction -/

theorem decodeTrap_of_undefined {v : BitVec 8} (h : definedVector v = false) : decodeTrap v = .trap v := by
  unfold decodeTrap
  split
  case h_7 => rfl
  all_goals exact absurd h (by decide)

/-- A TRAP word selects by its vector, whichever row that is (R141). -/
theorem decode_encode_trap (v : BitVec 8) : decode (encode (.trap v)) = decodeTrap v := by
  rw [decode_trap (opcodeOf_encode (.trap v))]
  simp [encode]

/-- The mode bit of ADD, AND and JSR selects the form; then every field reads back the operand put there. -/
theorem decode_encode (i : Instr) (hw : i.wellFormed = true) : decode (encode i) = i := by
  have hop := opcodeOf_encode i
  cases i
  case trap v => rw [decode_encode_trap, decodeTrap_of_undefined (by simpa [Instr.wellFormed] using hw)]
  case trapGetc => exact decode_encode_trap 0x20#8
  case trapOut => exact decode_encode_trap 0x21#8
  case trapPuts => exact decode_encode_trap 0x22#8
  case trapIn => exact decode_encode_trap 0x23#8
  case trapPutsp => exact decode_encode_trap 0x24#8
  case trapHalt => exact decode_encode_trap 0x25#8
  case rti => exact decode_rti hop
  case res => exact decode_res hop
  case' br => rw [decode_br hop]
  case' addReg => rw [decode_addReg hop (by simp [encode, getElem_fieldAt])]
  case' addImm => rw [decode_addImm hop (by simp [encode, getElem_fieldAt])]
  case' andReg => rw [decode_andReg hop (by simp [encode, getElem_fieldAt])]
  case' andImm => rw [decode_andImm hop (by simp [encode, getElem_fieldAt])]
  case' not => rw [decode_not hop]
  case' ld => rw [decode_ld hop]
  case' ldi => rw [decode_ldi hop]
  case' ldr => rw [decode_ldr hop]
  case' lea => rw [decode_lea hop]
  case' st => rw [decode_st hop]
  case' sti => rw [decode_sti hop]
  case' str => rw [decode_str hop]
  case' jmp => rw [decode_jmp hop]
  case' jsr => rw [decode_jsr hop (by simp [encode, getElem_fieldAt])]
  case' jsrr => rw [decode_jsrr hop (by simp [encode, getElem_fieldAt])]
  all_goals simp [encode, regField, getElem_fieldAt, extractLsb'_fieldAt_same, extractLsb'_fieldAt_apart]

/-- Settles O2: the opcode and the mode bit of the word select the row, and its fields are the operands. -/
theorem decodeOfEncode : Obligations.DecodeOfEncode := decode_encode

end Sys2Proof
end

section
/-! PROOFS. What a word is read as, one case for each row of the opcode map (30_encoding.md R82), and from it: the
instruction's own word and the instruction's row agree with the word in every bit that is not ignored (R84). -/

namespace Sys2Proof

/-! ### What a word is read as -/

/-- The instruction a word is read as, with the fields of R72 to R81 that say so. -/
inductive ReadsAs (w : Word) : Instr → Prop where
  | br (h : opcodeOf w = 0x0#4) : ReadsAs w (.br (w.getLsbD 11) (w.getLsbD 10) (w.getLsbD 9) (lowField 9 w))
  | addReg (h : opcodeOf w = 0x1#4) (h5 : w.getLsbD 5 = false) :
      ReadsAs w (.addReg (regField w 9) (regField w 6) (regField w 0))
  | addImm (h : opcodeOf w = 0x1#4) (h5 : w.getLsbD 5 = true) :
      ReadsAs w (.addImm (regField w 9) (regField w 6) (lowField 5 w))
  | ld (h : opcodeOf w = 0x2#4) : ReadsAs w (.ld (regField w 9) (lowField 9 w))
  | st (h : opcodeOf w = 0x3#4) : ReadsAs w (.st (regField w 9) (lowField 9 w))
  | jsr (h : opcodeOf w = 0x4#4) (h11 : w.getLsbD 11 = true) : ReadsAs w (.jsr (lowField 11 w))
  | jsrr (h : opcodeOf w = 0x4#4) (h11 : w.getLsbD 11 = false) : ReadsAs w (.jsrr (regField w 6))
  | andReg (h : opcodeOf w = 0x5#4) (h5 : w.getLsbD 5 = false) :
      ReadsAs w (.andReg (regField w 9) (regField w 6) (regField w 0))
  | andImm (h : opcodeOf w = 0x5#4) (h5 : w.getLsbD 5 = true) :
      ReadsAs w (.andImm (regField w 9) (regField w 6) (lowField 5 w))
  | ldr (h : opcodeOf w = 0x6#4) : ReadsAs w (.ldr (regField w 9) (regField w 6) (lowField 6 w))
  | str (h : opcodeOf w = 0x7#4) : ReadsAs w (.str (regField w 9) (regField w 6) (lowField 6 w))
  | rti (h : opcodeOf w = 0x8#4) : ReadsAs w .rti
  | not (h : opcodeOf w = 0x9#4) : ReadsAs w (.not (regField w 9) (regField w 6))
  | ldi (h : opcodeOf w = 0xA#4) : ReadsAs w (.ldi (regField w 9) (lowField 9 w))
  | sti (h : opcodeOf w = 0xB#4) : ReadsAs w (.sti (regField w 9) (lowField 9 w))
  | jmp (h : opcodeOf w = 0xC#4) : ReadsAs w (.jmp (regField w 6))
  | res (h : opcodeOf w = 0xD#4) : ReadsAs w .res
  | lea (h : opcodeOf w = 0xE#4) : ReadsAs w (.lea (regField w 9) (lowField 9 w))
  | trapGetc (h : opcodeOf w = 0xF#4) (hv : lowField 8 w = 0x20#8) : ReadsAs w .trapGetc
  | trapOut (h : opcodeOf w = 0xF#4) (hv : lowField 8 w = 0x21#8) : ReadsAs w .trapOut
  | trapPuts (h : opcodeOf w = 0xF#4) (hv : lowField 8 w = 0x22#8) : ReadsAs w .trapPuts
  | trapIn (h : opcodeOf w = 0xF#4) (hv : lowField 8 w = 0x23#8) : ReadsAs w .trapIn
  | trapPutsp (h : opcodeOf w = 0xF#4) (hv : lowField 8 w = 0x24#8) : ReadsAs w .trapPutsp
  | trapHalt (h : opcodeOf w = 0xF#4) (hv : lowField 8 w = 0x25#8) : ReadsAs w .trapHalt
  | trap (h : opcodeOf w = 0xF#4) (hv : definedVector (lowField 8 w) = false) : ReadsAs w (.trap (lowField 8 w))

theorem readsAs_decodeTrap {w : Word} (h : opcodeOf w = 0xF#4) : ReadsAs w (decodeTrap (lowField 8 w)) := by
  rcases decodeTrap_cases (lowField 8 w) with
    ⟨hv, e⟩ | ⟨hv, e⟩ | ⟨hv, e⟩ | ⟨hv, e⟩ | ⟨hv, e⟩ | ⟨hv, e⟩ | ⟨hv, e⟩ <;> rw [e]
  · exact .trapGetc h hv
  · exact .trapOut h hv
  · exact .trapPuts h hv
  · exact .trapIn h hv
  · exact .trapPutsp h hv
  · exact .trapHalt h hv
  · exact .trap h hv

/-- Every word is read as the instruction it decodes to. -/
theorem readsAs_decode (w : Word) : ReadsAs w (decode w) := by
  rcases opcodeOf_cases w with h | h | h | h | h | h | h | h | h | h | h | h | h | h | h | h
  · exact decode_br h ▸ .br h
  · cases h5 : w.getLsbD 5
    · exact decode_addReg h h5 ▸ .addReg h h5
    · exact decode_addImm h h5 ▸ .addImm h h5
  · exact decode_ld h ▸ .ld h
  · exact decode_st h ▸ .st h
  · cases h11 : w.getLsbD 11
    · exact decode_jsrr h h11 ▸ .jsrr h h11
    · exact decode_jsr h h11 ▸ .jsr h h11
  · cases h5 : w.getLsbD 5
    · exact decode_andReg h h5 ▸ .andReg h h5
    · exact decode_andImm h h5 ▸ .andImm h h5
  · exact decode_ldr h ▸ .ldr h
  · exact decode_str h ▸ .str h
  · exact decode_rti h ▸ .rti h
  · exact decode_not h ▸ .not h
  · exact decode_ldi h ▸ .ldi h
  · exact decode_sti h ▸ .sti h
  · exact decode_jmp h ▸ .jmp h
  · exact decode_res h ▸ .res h
  · exact decode_lea h ▸ .lea h
  · exact decode_trap h ▸ readsAs_decodeTrap h

/-! ### Putting the fields of a word back in place -/

/-- A field of a word put back where it was taken from is the word under the field's mask. -/
theorem fieldAt_of_extractLsb'_eq {w : Word} {lo n : Nat} {f : BitVec n} (h : w.extractLsb' lo n = f) :
    fieldAt f lo = w &&& fieldAt (BitVec.allOnes n) lo := by
  subst h
  apply BitVec.eq_of_getLsbD_eq
  intro k hk
  simp only [getLsbD_fieldAt, BitVec.getLsbD_and, BitVec.getLsbD_extractLsb', BitVec.getLsbD_allOnes, hk]
  by_cases hlo : lo ≤ k
  · simp [hlo, Bool.and_comm]
  · simp [hlo]

section
variable {w : Word}

theorem fieldAt_opcode {c : BitVec 4} (h : opcodeOf w = c) : fieldAt c 12 = w &&& 0xF000#16 :=
  fieldAt_of_extractLsb'_eq h

theorem fieldAt_vector {v : BitVec 8} (hv : lowField 8 w = v) : fieldAt v 0 = w &&& 0x00FF#16 :=
  fieldAt_of_extractLsb'_eq hv

theorem extractLsb'_one_eq_ofBool {k : Nat} {b : Bool} (h : w.getLsbD k = b) :
    w.extractLsb' k 1 = BitVec.ofBool b := by
  subst h
  ext i hi
  simp [show i = 0 by omega]

theorem fieldAt_bit {k : Nat} {b : Bool} (h : w.getLsbD k = b) :
    fieldAt (BitVec.ofBool b) k = w &&& 1#16 <<< k :=
  fieldAt_of_extractLsb'_eq (extractLsb'_one_eq_ofBool h)

theorem fieldAt_bit_false {k : Nat} (h : w.getLsbD k = false) : fieldAt 0#1 k = w &&& 1#16 <<< k := fieldAt_bit h

theorem fieldAt_bit_true {k : Nat} (h : w.getLsbD k = true) : fieldAt 1#1 k = w &&& 1#16 <<< k := fieldAt_bit h

theorem fieldAt_regField (lo : Nat) : fieldAt (regBits (regField w lo)) lo = w &&& 0x7#16 <<< lo :=
  fieldAt_of_extractLsb'_eq rfl

theorem fieldAt_lowField (n : Nat) : fieldAt (lowField n w) 0 = w &&& (BitVec.allOnes n).setWidth 16 := by
  rw [lowField, fieldAt_of_extractLsb'_eq rfl, fieldAt, BitVec.shiftLeft_zero]

/-- The word of the instruction a word is read as agrees with it in every bit that is not ignored (R84). -/
theorem ReadsAs.encode_agrees {i : Instr} (r : ReadsAs w i) :
    encode i &&& ~~~ignoredBits w = w &&& ~~~ignoredBits w := by
  cases r
  case not h =>  -- its word has ones in the ignored bits
    have ones : fieldAt 0x3F#6 0 = 0x003F#16 := rfl
    simp [encode, ignoredBits, fieldAt_opcode h, fieldAt_regField, ones, h, BitVec.and_or_distrib_right,
      BitVec.and_assoc, ← BitVec.and_or_distrib_left]
  case' br h => simp only [encode, ignoredBits, fieldAt_opcode h, fieldAt_bit rfl, h]
  case' ld h | st h | ldr h | str h | rti h | ldi h | sti h | jmp h | res h | lea h | trap h _ =>
    simp only [encode, ignoredBits, fieldAt_opcode h, h]
  case' addReg h h5 | andReg h h5 | jsrr h h5 =>
    simp only [encode, ignoredBits, fieldAt_opcode h, fieldAt_bit_false h5, h, h5]
  case' addImm h h5 | andImm h h5 | jsr h h5 =>
    simp only [encode, ignoredBits, fieldAt_opcode h, fieldAt_bit_true h5, h, h5]
  case' trapGetc h hv | trapOut h hv | trapPuts h hv | trapIn h hv | trapPutsp h hv | trapHalt h hv =>
    simp only [encode, ignoredBits, fieldAt_opcode h, fieldAt_vector hv, h]
  all_goals
    simp [fieldAt_regField, fieldAt_lowField, ← BitVec.and_or_distrib_left, BitVec.and_assoc]

/-! ### The rows of the opcode map -/

theorem row_mem_opcodeTable (i : Instr) : i.row ∈ opcodeTable := by
  cases i <;> simp [opcodeTable, rowSamples, Instr.row]

theorem OpcodeRow.matches_iff (r : OpcodeRow) (w : Word) : r.matches w = true ↔ w &&& r.mask = r.pattern :=
  beq_iff_eq

/-- A row that names the opcode and one field more, by the values of the two. -/
theorem and_opcode_or_field {c : BitVec 4} {lo n : Nat} {f : BitVec n} (h : opcodeOf w = c)
    (hf : w.extractLsb' lo n = f) :
    w &&& (0xF000#16 ||| fieldAt (BitVec.allOnes n) lo) = fieldAt c 12 ||| fieldAt f lo := by
  rw [BitVec.and_or_distrib_left, fieldAt_opcode h, fieldAt_of_extractLsb'_eq hf]

/-- A word matches the row of the instruction it is read as: the row's mask covers the opcode, and the mode bit or the
vector where the row has one (R82). -/
theorem ReadsAs.row_matches {i : Instr} (r : ReadsAs w i) : i.row.matches w = true := by
  rw [OpcodeRow.matches_iff]
  cases r
  case br h | ld h | st h | ldr h | str h | rti h | not h | ldi h | sti h | jmp h | res h | lea h | trap h _ =>
    exact (fieldAt_opcode h).symm
  case addReg h h5 | andReg h h5 | jsrr h h5 | addImm h h5 | andImm h h5 | jsr h h5 =>
    exact and_opcode_or_field h (extractLsb'_one_eq_ofBool h5)
  case trapGetc h hv | trapOut h hv | trapPuts h hv | trapIn h hv | trapPutsp h hv | trapHalt h hv =>
    exact and_opcode_or_field h hv

/-- Two rows match one word only if they agree where both their masks have a one. -/
theorem OpcodeRow.agree_of_matches {r r' : OpcodeRow} (h : r.matches w = true) (h' : r'.matches w = true) :
    r.pattern &&& r'.mask = r'.pattern &&& r.mask := by
  rw [OpcodeRow.matches_iff] at h h'
  rw [← h, ← h']
  ac_rfl

/-- The fallback TRAP row and the six vector rows are the only rows that agree there. -/
theorem rows_apart : ∀ r ∈ opcodeTable, ∀ r' ∈ opcodeTable, r.pattern &&& r'.mask = r'.pattern &&& r.mask →
    r = r' ∨ (r = ⟨"TRAP", 0xF000#16, 0xF000#16⟩ ∧ r'.mask = 0xF0FF#16) ∨
      (r' = ⟨"TRAP", 0xF000#16, 0xF000#16⟩ ∧ r.mask = 0xF0FF#16) := by decide

theorem definedVector_of_vectorRow :
    ∀ r ∈ opcodeTable, r.mask = 0xF0FF#16 → definedVector (lowField 8 r.pattern) = true := by decide

/-- A word that matches a vector row has that row's vector. -/
theorem OpcodeRow.definedVector_of_matches {r : OpcodeRow} (hr : r ∈ opcodeTable) (hm : r.mask = 0xF0FF#16)
    (h : r.matches w = true) : definedVector (lowField 8 w) = true := by
  have hp : lowField 8 r.pattern = lowField 8 w := by
    rw [← (r.matches_iff w).mp h, hm, lowField, BitVec.extractLsb'_and]
    exact BitVec.and_allOnes
  exact hp ▸ definedVector_of_vectorRow r hr hm

/-- A word is read by the fallback TRAP row only when its vector has no row of its own (R82, R150). -/
theorem ReadsAs.vector_undefined {i : Instr} (r : ReadsAs w i) (h : i.row.mnemonic = "TRAP") :
    definedVector (lowField 8 w) = false := by
  cases r
  case trap hv => exact hv
  all_goals simp [Instr.row] at h

end

/-- Settles O3, for the instruction each word is read as. -/
theorem encodeOfDecode : Obligations.EncodeOfDecode := fun w =>
  ⟨Machine.wellFormed_decode w, (readsAs_decode w).encode_agrees⟩

/-- Settles O5: two rows that match one word agree, so they are one row, or the fallback TRAP row and a vector row; and
then the word has a defined vector, which it is read by. -/
theorem opcodeMapPartitionsWords : Obligations.OpcodeMapPartitionsWords := by
  refine ⟨rfl, fun w => ⟨row_mem_opcodeTable _, (readsAs_decode w).row_matches, fun r hr h => ?_⟩⟩
  have agree := OpcodeRow.agree_of_matches h (readsAs_decode w).row_matches
  obtain e | e | ⟨e, hm⟩ := rows_apart r hr _ (row_mem_opcodeTable _) agree
  · exact .inl e
  · exact .inr e
  · have defined := OpcodeRow.definedVector_of_matches hr hm h
    have undefined := (readsAs_decode w).vector_undefined (by rw [e])
    simp [defined] at undefined

end Sys2Proof
end

section
/-! PROOFS. The ignored bits (30_encoding.md R84): a word with other values in bits no field uses has the same opcode,
mode bit and fields, and so decodes alike. -/

namespace Sys2Proof

/-- The word with its bits under the mask taken from another word. -/
def withBitsOf (m w v : Word) : Word := (w &&& ~~~m) ||| (v &&& m)

section
variable (m w v : Word)

/-! A field the mask does not touch is still the word's own. -/

theorem getLsbD_withBitsOf {k : Nat} (hm : m.getLsbD k = false) : (withBitsOf m w v).getLsbD k = w.getLsbD k := by
  by_cases hk : k < 16 <;> simp_all [withBitsOf]

theorem extractLsb'_withBitsOf {lo n : Nat} (hm : m.extractLsb' lo n = 0#n) :
    (withBitsOf m w v).extractLsb' lo n = w.extractLsb' lo n := by
  apply BitVec.eq_of_getLsbD_eq
  intro k hk
  have clear : m.getLsbD (lo + k) = false := by simpa [hk] using congrArg (BitVec.getLsbD · k) hm
  simp [hk, getLsbD_withBitsOf m w v clear]

theorem opcodeOf_withBitsOf (hm : opcodeOf m = 0#4) : opcodeOf (withBitsOf m w v) = opcodeOf w :=
  extractLsb'_withBitsOf m w v hm

theorem lowField_withBitsOf {n : Nat} (hm : lowField n m = 0#n) : lowField n (withBitsOf m w v) = lowField n w :=
  extractLsb'_withBitsOf m w v hm

theorem regField_withBitsOf {lo : Nat} (hm : m.extractLsb' lo 3 = 0#3) :
    regField (withBitsOf m w v) lo = regField w lo :=
  congrArg BitVec.toFin (extractLsb'_withBitsOf m w v hm)

end

/-! ### The formats with ignored bits -/

section
variable {w : Word} (v : Word)

theorem decode_withBitsOf_addReg (h : opcodeOf w = 0x1#4) (h5 : w.getLsbD 5 = false) :
    decode (withBitsOf 0x0018#16 w v) = decode w := by
  have hop := (opcodeOf_withBitsOf 0x0018#16 w v rfl).trans h
  have hmode := (getLsbD_withBitsOf 0x0018#16 w v rfl).trans h5
  rw [decode_addReg h h5, decode_addReg hop hmode, regField_withBitsOf _ w v rfl, regField_withBitsOf _ w v rfl,
    regField_withBitsOf _ w v rfl]

theorem decode_withBitsOf_andReg (h : opcodeOf w = 0x5#4) (h5 : w.getLsbD 5 = false) :
    decode (withBitsOf 0x0018#16 w v) = decode w := by
  have hop := (opcodeOf_withBitsOf 0x0018#16 w v rfl).trans h
  have hmode := (getLsbD_withBitsOf 0x0018#16 w v rfl).trans h5
  rw [decode_andReg h h5, decode_andReg hop hmode, regField_withBitsOf _ w v rfl, regField_withBitsOf _ w v rfl,
    regField_withBitsOf _ w v rfl]

theorem decode_withBitsOf_not (h : opcodeOf w = 0x9#4) : decode (withBitsOf 0x003F#16 w v) = decode w := by
  have hop := (opcodeOf_withBitsOf 0x003F#16 w v rfl).trans h
  rw [decode_not h, decode_not hop, regField_withBitsOf _ w v rfl, regField_withBitsOf _ w v rfl]

theorem decode_withBitsOf_jmp (h : opcodeOf w = 0xC#4) : decode (withBitsOf 0x0E3F#16 w v) = decode w := by
  have hop := (opcodeOf_withBitsOf 0x0E3F#16 w v rfl).trans h
  rw [decode_jmp h, decode_jmp hop, regField_withBitsOf _ w v rfl]

theorem decode_withBitsOf_jsrr (h : opcodeOf w = 0x4#4) (h11 : w.getLsbD 11 = false) :
    decode (withBitsOf 0x063F#16 w v) = decode w := by
  have hop := (opcodeOf_withBitsOf 0x063F#16 w v rfl).trans h
  have hmode := (getLsbD_withBitsOf 0x063F#16 w v rfl).trans h11
  rw [decode_jsrr h h11, decode_jsrr hop hmode, regField_withBitsOf _ w v rfl]

theorem decode_withBitsOf_trap (h : opcodeOf w = 0xF#4) : decode (withBitsOf 0x0F00#16 w v) = decode w := by
  have hop := (opcodeOf_withBitsOf 0x0F00#16 w v rfl).trans h
  rw [decode_trap h, decode_trap hop, lowField_withBitsOf _ w v rfl]

theorem decode_withBitsOf_rti (h : opcodeOf w = 0x8#4) : decode (withBitsOf 0x0FFF#16 w v) = decode w := by
  have hop := (opcodeOf_withBitsOf 0x0FFF#16 w v rfl).trans h
  rw [decode_rti h, decode_rti hop]

theorem decode_withBitsOf_res (h : opcodeOf w = 0xD#4) : decode (withBitsOf 0x0FFF#16 w v) = decode w := by
  have hop := (opcodeOf_withBitsOf 0x0FFF#16 w v rfl).trans h
  rw [decode_res h, decode_res hop]

end

/-- Settles O4, format by format. -/
theorem ignoredBitsDoNotMatter : Obligations.IgnoredBitsDoNotMatter := by
  refine fun w => ⟨fun h h5 v => ?_, fun h v => decode_withBitsOf_not v h, fun h v => decode_withBitsOf_jmp v h,
    fun h h11 v => decode_withBitsOf_jsrr v h h11, fun h v => decode_withBitsOf_trap v h, fun h v => ?_⟩
  · exact h.elim (decode_withBitsOf_addReg v · h5) (decode_withBitsOf_andReg v · h5)
  · exact h.elim (decode_withBitsOf_rti v) (decode_withBitsOf_res v)

end Sys2Proof
end

section
/-! PROOFS. The words that do not execute and the words that do nothing (30_encoding.md R85, R86), and the words written
out in the spec. -/

namespace Sys2Proof.Machine

/-! ### Illegal encodings -/

theorem toNat_opcodeOf (w : Word) : (opcodeOf w).toNat = w.toNat / 4096 := by
  rw [opcodeOf, BitVec.extractLsb'_toNat, Nat.shiftRight_eq_div_pow, Nat.mod_eq_of_lt]
  have := w.isLt
  omega

/-- The words of an opcode are the 4096 words from the opcode's own (R70). -/
theorem opcodeOf_eq_iff (w : Word) (c : BitVec 4) :
    opcodeOf w = c ↔ 4096 * c.toNat ≤ w.toNat ∧ w.toNat ≤ 4096 * c.toNat + 4095 := by
  rw [← BitVec.toNat_inj, toNat_opcodeOf]
  omega

theorem decode_eq_rti_iff (w : Word) : decode w = .rti ↔ opcodeOf w = 0x8#4 :=
  ⟨fun h => by rw [opcodeOf_eq_opcode_decode, h]; rfl, decode_rti⟩

theorem decode_eq_res_iff (w : Word) : decode w = .res ↔ opcodeOf w = 0xD#4 :=
  ⟨fun h => by rw [opcodeOf_eq_opcode_decode, h]; rfl, decode_res⟩

/-- An instruction that is not of a reserved opcode aborts no run. -/
theorem Effect.run_eq_of_aborted {i : Instr} {s t : State} (eff : Effect i s t) (hrti : i ≠ .rti) (hres : i ≠ .res)
    (h : t.run = .aborted) : s.run = .aborted := by
  obtain hrun | ⟨_, hi⟩ | ⟨hrun, _⟩ := eff.run_cases
  · exact hrun ▸ h
  · exact absurd hi (not_or.mpr ⟨hrti, hres⟩)
  · simp [hrun] at h

/-- Settles O7: the two ranges by the opcode's, the rest by the effects that abort. -/
theorem illegalEncodings : Obligations.IllegalEncodings := by
  refine fun w s => ⟨?_, ?_, ?_, fun hrti hres => ?_⟩
  · exact (decode_eq_rti_iff w).trans (opcodeOf_eq_iff w 0x8#4)
  · exact (decode_eq_res_iff w).trans (opcodeOf_eq_iff w 0xD#4)
  · rintro (h | h) <;> rw [h] <;> exact ⟨_, rfl, rfl⟩
  · obtain ⟨t, ht, eff⟩ := exec_effect (decode w) s (wellFormed_decode w)
    exact ⟨t, ht, eff.run_eq_of_aborted hrti hres⟩

/-! ### No-op encodings -/

/-- A word up to 0x01FF is a branch with an empty mask. -/
theorem decode_of_le_01FF {w : Word} (h : w ≤ 0x01FF#16) : decode w = .br false false false (lowField 9 w) := by
  have hle : w.toNat ≤ 511 := by simpa [BitVec.le_def] using h
  have high (k : Nat) (hk : 9 ≤ k) : w.getLsbD k = false := Nat.testBit_lt_two_pow <|
    calc w.toNat < 2 ^ 9 := Nat.lt_succ_of_le hle
      _ ≤ 2 ^ k := Nat.pow_le_pow_right two_pos hk
  rw [decode_br ((opcodeOf_eq_iff w 0x0#4).mpr ⟨Nat.zero_le _, hle.trans (by decide)⟩), high 11 (by decide),
    high 10 (by decide), high 9 (by decide)]

/-- A branch with a full mask is taken, whatever the flag (R85, R111). -/
theorem exec_br_of_full_mask (off9 : BitVec 9) (s : State) :
    exec (.br true true true off9) s = .next (s.setPc (pcRel9 off9 s)) := by
  have taken : branchTaken true true true s.cond = true := by cases s.cond <;> simp [branchTaken_iff]
  rw [exec, execBr, if_pos taken]

/-- The three mask bits of BR are `ir[11:9]`. -/
theorem decode_of_full_mask {w : Word} (h : opcodeOf w = 0x0#4) (hm : w.extractLsb' 9 3 = 7#3) :
    decode w = .br true true true (lowField 9 w) := by
  have bit (k : Nat) (hk : k < 3) : w.getLsbD (9 + k) = (7#3).getLsbD k := by
    rw [← hm, BitVec.getLsbD_extractLsb']; simp [hk]
  rw [decode_br h, bit 2 (by decide), bit 1 (by decide), bit 0 (by decide)]
  rfl

/-- Settles O14: an empty mask is never taken, a full one always. -/
theorem noOpEncodings : Obligations.NoOpEncodings := by
  refine ⟨fun w s h => ?_, fun w s h hm => ⟨s.setPc (pcRel9 (lowField 9 w) s), ?_, ?_⟩⟩
  · rw [decode_of_le_01FF h, exec_br_of_empty_mask]
  · rw [decode_of_full_mask h hm, exec_br_of_full_mask]
  · rw [State.pc_setPc, pcRel9, sextField_lowField w (by decide)]

/-! ### The spec's words -/

/-- Settles O1, word by word. -/
theorem specWordsDecode : Obligations.SpecWordsDecode := by
  unfold Obligations.SpecWordsDecode
  decide

end Sys2Proof.Machine
end

section
/-! PROOFS. The operate family's statements (40_operate.md R101 to R105): each row ends by writing its result, which is
the spec's operation on what the operands held before. -/

namespace Sys2Proof.Machine

/-! ### A written result -/

theorem writeResult_reg_same (dr : RegIdx) (v : Word) (s : State) : (writeResult dr v s).reg dr = v := by simp

/-- Everything `writeResult` does beside the result: the flag is that of the new value, the rest stays (R26). -/
theorem writeResult_frame (dr : RegIdx) (v : Word) (s : State) :
    FlagOf ((writeResult dr v s).reg dr) (writeResult dr v s).cond ∧ RegsSameBut dr s (writeResult dr v s) ∧
    (writeResult dr v s).pc = s.pc ∧ CellsSame s (writeResult dr v s) ∧ IoSame s (writeResult dr v s) ∧
    StatusSame s (writeResult dr v s) := by
  refine ⟨?_, fun r hr => ?_, rfl, fun _ => rfl, ⟨rfl, rfl⟩, rfl, rfl, rfl, rfl⟩
  · rw [writeResult_reg_same, writeResult_cond]
    exact flagOf_condOf v
  · rw [writeResult_reg, if_neg hr]

/-! ### The result of each row -/

section
variable (dr sr sr1 sr2 : RegIdx) (imm5 : BitVec 5) (s : State)

theorem exec_addReg : exec (.addReg dr sr1 sr2) s = .next (writeResult dr (s.reg sr1 + s.reg sr2) s) := rfl

theorem exec_addImm : exec (.addImm dr sr1 imm5) s = .next (writeResult dr (s.reg sr1 + sextField imm5) s) := rfl

theorem exec_andReg : exec (.andReg dr sr1 sr2) s = .next (writeResult dr (s.reg sr1 &&& s.reg sr2) s) := rfl

theorem exec_andImm : exec (.andImm dr sr1 imm5) s = .next (writeResult dr (s.reg sr1 &&& sextField imm5) s) := rfl

theorem exec_not : exec (.not dr sr) s = .next (writeResult dr (~~~ s.reg sr) s) := rfl

end

/-! ### The statements -/

/-- Settles O8: the result is the sum of the old operands, everything else by the frame of a written result. -/
theorem addRegister : Obligations.AddRegister := by
  refine ⟨fun _ => decode_addReg, fun dr sr1 sr2 s => ⟨_, exec_addReg dr sr1 sr2 s, ?_, writeResult_frame ..⟩⟩
  rw [writeResult_reg_same]
  exact BitVec.toNat_add ..

/-- Settles O9: as the register form, which has the same result when its second operand holds the immediate. -/
theorem addImmediate : Obligations.AddImmediate := by
  refine ⟨fun _ => decode_addImm, fun dr sr1 imm5 s => ⟨_, exec_addImm dr sr1 imm5 s, ?_, writeResult_frame ..⟩,
    fun dr sr1 sr2 imm5 s h => ⟨?_, ?_⟩⟩
  · rw [writeResult_reg_same]
    exact BitVec.toNat_add ..
  · rw [exec_addImm, exec_addReg, h]
  · rw [exec_andImm, exec_andReg, h]

/-- Settles O10: the result is the conjunction of the old operands. -/
theorem andRegister : Obligations.AndRegister := by
  refine ⟨fun _ => decode_andReg,
    fun dr sr1 sr2 s => ⟨_, exec_andReg dr sr1 sr2 s, fun k _ => ?_, writeResult_frame ..⟩⟩
  rw [writeResult_reg_same]
  exact BitVec.getLsbD_and

/-- Settles O11: the result is the conjunction of the old operand and the immediate. -/
theorem andImmediate : Obligations.AndImmediate := by
  refine ⟨fun _ => decode_andImm,
    fun dr sr1 imm5 s => ⟨_, exec_andImm dr sr1 imm5 s, fun k _ => ?_, writeResult_frame ..⟩⟩
  rw [writeResult_reg_same]
  exact BitVec.getLsbD_and

/-- Settles O12: the complement of a word is 65535 less the word. -/
theorem notComplement : Obligations.NotComplement := by
  refine ⟨fun _ => decode_not, fun dr sr s => ⟨_, exec_not dr sr s, ?_, writeResult_frame ..⟩⟩
  rw [writeResult_reg_same]
  exact BitVec.toNat_not

end Sys2Proof.Machine
end

section
/-! PROOFS. The control family's statements (41_control.md R111 to R114): each row writes the PC, JSR and JSRR the link
in R7 before it, and nothing else. -/

namespace Sys2Proof.Machine

/-! ### What a jump and a jump with a link leave unchanged -/

/-- Everything but the PC stays when the PC is written (R111, R112). -/
theorem State.setPc_frame (a : Word) (s : State) :
    RegsSame s (s.setPc a) ∧ (s.setPc a).cond = s.cond ∧ CellsSame s (s.setPc a) ∧ IoSame s (s.setPc a) ∧
    StatusSame s (s.setPc a) :=
  ⟨fun _ => rfl, rfl, fun _ => rfl, ⟨rfl, rfl⟩, rfl, rfl, rfl, rfl⟩

/-- R7 holds the old PC after a jump with a link (R113, R114). -/
theorem reg_seven_link (a : Word) (s : State) : ((s.setReg 7 s.pc).setPc a).reg 7 = s.pc := by simp

/-- Everything but R7 and the PC stays at a jump with a link (R113, R114). -/
theorem link_frame (a : Word) (s : State) :
    RegsSameBut 7 s ((s.setReg 7 s.pc).setPc a) ∧ ((s.setReg 7 s.pc).setPc a).cond = s.cond ∧
    CellsSame s ((s.setReg 7 s.pc).setPc a) ∧ IoSame s ((s.setReg 7 s.pc).setPc a) ∧
    StatusSame s ((s.setReg 7 s.pc).setPc a) :=
  ⟨fun r hr => State.reg_setReg_ne s 7 r s.pc hr, rfl, fun _ => rfl, ⟨rfl, rfl⟩, rfl, rfl, rfl, rfl⟩

/-! ### The next state of each row -/

section
variable (n z p : Bool) (off9 : BitVec 9) (off11 : BitVec 11) (baseR : RegIdx) (s : State)

/-- BR writes the PC in both cases: a branch not taken writes back the PC it has. -/
theorem exec_br :
    exec (.br n z p off9) s = .next (s.setPc (if branchTaken n z p s.cond then s.pc + sextField off9 else s.pc)) := by
  rw [exec, execBr]
  split <;> rfl

theorem exec_jmp : exec (.jmp baseR) s = .next (s.setPc (s.reg baseR)) := rfl

theorem exec_jsr : exec (.jsr off11) s = .next ((s.setReg 7 s.pc).setPc (s.pc + sextField off11)) := rfl

/-- JSRR reads its base from the state that holds the link already (R114, D14). -/
theorem exec_jsrr :
    exec (.jsrr baseR) s = .next ((s.setReg 7 s.pc).setPc ((s.setReg 7 s.pc).reg baseR)) := rfl

end

/-! ### The statements -/

/-- Settles O13: the PC by whether the branch is taken, everything else by the frame of a written PC. -/
theorem branch : Obligations.Branch := by
  refine ⟨fun _ => decode_br, fun n z p off9 s =>
    ⟨_, exec_br n z p off9 s, fun taken => ?_, fun untaken => ?_, State.setPc_frame ..⟩⟩
  · rw [State.pc_setPc, if_pos ((branchTaken_iff ..).mpr taken)]
  · rw [State.pc_setPc, if_neg (mt (branchTaken_iff ..).mp untaken)]

/-- Settles O15: only the PC is written, with the base register's value. -/
theorem jump : Obligations.Jump :=
  ⟨fun _ => decode_jmp, fun baseR s => ⟨_, exec_jmp baseR s, rfl, State.setPc_frame ..⟩⟩

/-- Settles O16: a jump with a link, to a target relative to the old PC. -/
theorem jumpSubroutine : Obligations.JumpSubroutine :=
  ⟨fun _ => decode_jsr, fun off11 s => ⟨_, exec_jsr off11 s, reg_seven_link .., rfl, link_frame ..⟩⟩

/-- Settles O17: a jump with a link; the base is the link itself when it is R7, and the old register otherwise. -/
theorem jumpSubroutineRegister : Obligations.JumpSubroutineRegister := by
  refine ⟨fun _ => decode_jsrr, fun baseR s =>
    ⟨_, exec_jsrr baseR s, reg_seven_link .., fun hne => ?_, ?_, link_frame ..⟩⟩
  · exact State.reg_setReg_ne s 7 baseR s.pc hne
  · rintro rfl
    exact State.reg_setReg_same s 7 s.pc

/-- Settles O18: JMP R7 goes to what R7 holds, which is the link that JSR wrote. -/
theorem callReturns : Obligations.CallReturns := by
  intro off11 s t u hjsr hr7
  obtain ⟨_, hcall⟩ := jumpSubroutine
  obtain ⟨t', ht', hlink, _⟩ := hcall off11 s
  cases hjsr.symm.trans ht'
  refine ⟨_, exec_jmp 7 u, ?_⟩
  calc (u.setPc (u.reg 7)).pc
    _ = u.reg 7 := State.pc_setPc ..
    _ = t.reg 7 := hr7
    _ = s.pc := hlink

end Sys2Proof.Machine
end

section
/-! PROOFS. The load and store family's statements (42_load_store.md R121 to R127): a load writes its result, and a
store its cell, into the state that the reads leave, and the reads touch nothing but memory and the input source. -/

namespace Sys2Proof.Machine

/-! ### What a sequence of reads leaves unchanged -/

/-- Everything but memory and the input source is unchanged, as after reads through `MemRead` (R45). -/
abbrev ReadFrame (s u : State) : Prop :=
  RegsSame s u ∧ u.pc = s.pc ∧ u.cond = s.cond ∧ u.output = s.output ∧ StatusSame s u

theorem ReadFrame.refl (s : State) : ReadFrame s s := ⟨fun _ => rfl, rfl, rfl, rfl, rfl, rfl, rfl, rfl⟩

theorem ReadFrame.trans {s t u : State} (hst : ReadFrame s t) (htu : ReadFrame t u) : ReadFrame s u := by
  obtain ⟨hregs, hpc, hcond, hout, hrun, hhold, hstop, hplan⟩ := hst
  obtain ⟨hregs', hpc', hcond', hout', hrun', hhold', hstop', hplan'⟩ := htu
  exact ⟨fun r => (hregs' r).trans (hregs r), hpc'.trans hpc, hcond'.trans hcond, hout'.trans hout,
    hrun'.trans hrun, hhold'.trans hhold, hstop'.trans hstop, hplan'.trans hplan⟩

/-- LDI's two reads: the pointer at `a`, then, in the state that read leaves, the word it points to (R122). -/
def readIndirect (a : Word) (s : State) : Word × State := memRead (memRead a s).1 (memRead a s).2

theorem readIndirect_frame (a : Word) (s : State) : ReadFrame s (readIndirect a s).2 :=
  ReadFrame.trans (memRead_frame a s) (memRead_frame ..)

/-! ### A result and a store after the reads -/

section
variable {s u : State} (h : ReadFrame s u)
include h

/-- A result written after reads: memory and the queues are those the reads leave, the rest is as before them (R26). -/
theorem ReadFrame.writeResult_frame (dr : RegIdx) (v : Word) :
    FlagOf ((writeResult dr v u).reg dr) (writeResult dr v u).cond ∧ RegsSameBut dr s (writeResult dr v u) ∧
    (writeResult dr v u).pc = s.pc ∧ CellsSame u (writeResult dr v u) ∧ IoSame u (writeResult dr v u) ∧
    (writeResult dr v u).output = s.output ∧ StatusSame s (writeResult dr v u) := by
  obtain ⟨hregs, hpc, _, hout, hstatus⟩ := h
  obtain ⟨hflag, hregs', _, hcells, hio, _⟩ := Machine.writeResult_frame dr v u
  exact ⟨hflag, fun r hr => (hregs' r hr).trans (hregs r), hpc, hcells, hio, hout, hstatus⟩

/-- A store after reads: the other cells and the queues are those the reads leave, the rest is as before them (R47). -/
theorem ReadFrame.memWrite_frame (a v : Word) :
    (memWrite a v u).cell a = v ∧ CellsSameBut a u (memWrite a v u) ∧ RegsSame s (memWrite a v u) ∧
    (memWrite a v u).cond = s.cond ∧ (memWrite a v u).pc = s.pc ∧ IoSame u (memWrite a v u) ∧
    StatusSame s (memWrite a v u) := by
  obtain ⟨hregs, hpc, hcond, _, hstatus⟩ := h
  obtain ⟨hcell, hcells, _, _, _, hio, _⟩ := plainStore a v u
  exact ⟨hcell, hcells, hregs, hcond, hpc, hio, hstatus⟩

end

/-! ### The next state of each row -/

section
variable (dr sr baseR : RegIdx) (off6 : BitVec 6) (off9 : BitVec 9) (s : State)

theorem exec_ld :
    exec (.ld dr off9) s =
      .next (writeResult dr (memRead (s.pc + sextField off9) s).1 (memRead (s.pc + sextField off9) s).2) := rfl

theorem exec_ldi :
    exec (.ldi dr off9) s =
      .next (writeResult dr (readIndirect (s.pc + sextField off9) s).1
        (readIndirect (s.pc + sextField off9) s).2) := rfl

theorem exec_ldr :
    exec (.ldr dr baseR off6) s =
      .next (writeResult dr (memRead (s.reg baseR + sextField off6) s).1
        (memRead (s.reg baseR + sextField off6) s).2) := rfl

theorem exec_lea : exec (.lea dr off9) s = .next (writeResult dr (s.pc + sextField off9) s) := rfl

theorem exec_st : exec (.st sr off9) s = .next (memWrite (s.pc + sextField off9) (s.reg sr) s) := rfl

/-- STI stores the old SR, which the pointer read leaves alone (R126). -/
theorem exec_sti :
    exec (.sti sr off9) s =
      .next (memWrite (memRead (s.pc + sextField off9) s).1 (s.reg sr) (memRead (s.pc + sextField off9) s).2) := by
  rw [exec, execSti, memRead_reg, pcRel9]

theorem exec_str : exec (.str sr baseR off6) s = .next (memWrite (s.reg baseR + sextField off6) (s.reg sr) s) := rfl

end

/-! ### The statements -/

/-- Settles O22: the word read is the result, and the rest is the frame of a result after one read. -/
theorem load : Obligations.Load :=
  ⟨fun _ => decode_ld, fun dr off9 s =>
    ⟨_, exec_ld dr off9 s, writeResult_reg_same .., ReadFrame.writeResult_frame (memRead_frame ..) ..⟩⟩

/-- Settles O23: the second word read is the result, and the rest is the frame of a result after two reads. -/
theorem loadIndirect : Obligations.LoadIndirect := by
  refine ⟨fun _ => decode_ldi, fun dr off9 s => ⟨_, exec_ldi dr off9 s, ?_⟩⟩
  obtain ⟨hflag, hregs, hpc, hcells, hio, hout, hstatus⟩ := (readIndirect_frame ..).writeResult_frame dr _
  exact ⟨⟨writeResult_reg_same .., hflag, hcells, hio⟩, hregs, hpc, hout, hstatus⟩

/-- Settles O24: as LD, at an address that comes from the base as it was before DR is written. -/
theorem loadBaseOffset : Obligations.LoadBaseOffset :=
  ⟨fun _ => decode_ldr, fun dr baseR off6 s =>
    ⟨_, exec_ldr dr baseR off6 s, writeResult_reg_same .., ReadFrame.writeResult_frame (memRead_frame ..) ..⟩⟩

/-- Settles O25: the address is the result, with no read before it. -/
theorem loadEffectiveAddress : Obligations.LoadEffectiveAddress :=
  ⟨fun _ => decode_lea, fun dr off9 s =>
    ⟨_, exec_lea dr off9 s, writeResult_reg_same .., writeResult_frame ..⟩⟩

/-- Settles O26: a store with no read before it. -/
theorem store : Obligations.Store :=
  ⟨fun _ => decode_st, fun sr off9 s => ⟨_, exec_st sr off9 s, (ReadFrame.refl s).memWrite_frame ..⟩⟩

/-- Settles O27: a store after the pointer read, at the address that read gave. -/
theorem storeIndirect : Obligations.StoreIndirect := by
  refine ⟨fun _ => decode_sti, fun sr off9 s => ⟨_, exec_sti sr off9 s, ?_⟩⟩
  have read : ReadFrame s _ := memRead_frame (s.pc + sextField off9) s
  obtain ⟨hcell, hcells, hregs, hcond, hpc, hio, hstatus⟩ := read.memWrite_frame _ (s.reg sr)
  exact ⟨⟨hcell, hcells, hio⟩, hregs, hcond, hpc, memRead_output .., hstatus⟩

/-- Settles O28: as ST, at the address the base gives. -/
theorem storeBaseOffset : Obligations.StoreBaseOffset :=
  ⟨fun _ => decode_str, fun sr baseR off6 s =>
    ⟨_, exec_str sr baseR off6 s, (ReadFrame.refl s).memWrite_frame ..⟩⟩

end Sys2Proof.Machine
end

section
/-! PROOFS. The trap family's statements on characters, HALT and the dispatch (43_trap.md R141 to R150): bytes put out,
a character taken and a hold, each with its frame, and the routine of each row as one of them. -/

namespace Sys2Proof.Machine

/-! ### The dispatch -/

/-- A word of opcode 15 selects by its vector field, whatever its ignored bits (R141). -/
theorem decode_of_vector {w : Word} {v : BitVec 8} (h : opcodeOf w = 0xF#4) (hv : w.extractLsb' 0 8 = v) :
    decode w = decodeTrap v := by
  rw [decode_trap h, lowField, hv]

theorem definedVector_of_out_of_range {v : BitVec 8} (h : v < 0x20#8 ∨ 0x25#8 < v) : definedVector v = false := by
  simp only [definedVector, Bool.and_eq_false_iff, decide_eq_false_iff_not, BitVec.not_le]
  exact h

/-- A vector selects an instruction that writes no register, or R0 where it is GETC's or IN's. -/
theorem mem_writtenRegs_decodeTrap {v : BitVec 8} {r : RegIdx} (h : r ∈ writtenRegs (decodeTrap v)) :
    r = 0 ∧ (v = 0x20#8 ∨ v = 0x23#8) := by
  obtain ⟨rfl, e⟩ | ⟨_, e⟩ | ⟨_, e⟩ | ⟨rfl, e⟩ | ⟨_, e⟩ | ⟨_, e⟩ | ⟨_, e⟩ := decodeTrap_cases v <;> rw [e] at h
  case inl => exact ⟨List.mem_singleton.mp h, .inl rfl⟩
  case inr.inr.inr.inl => exact ⟨List.mem_singleton.mp h, .inr rfl⟩
  all_goals simp [writtenRegs] at h

/-- No vector selects a routine that writes the PC, the flag or memory (R141). -/
theorem decodeTrap_effect_frame {v : BitVec 8} {s t : State} (eff : Effect (decodeTrap v) s t) :
    t.pc = s.pc ∧ t.cond = s.cond ∧ CellsSame s t := by
  obtain ⟨hflag, hpc, haddr⟩ := mayWriteAlike_decodeTrap v
  obtain ⟨hstore, hreads⟩ := haddr s
  refine ⟨eff.pc_eq hpc, eff.cond_eq hflag, fun a => ?_⟩
  by_contra ha
  obtain hst | ⟨_, hpoll⟩ := eff.cell_cases ha
  · rw [hstore] at hst
    simp [storeAddress] at hst
  · rw [Polls, hreads] at hpoll
    simp [readAddresses] at hpoll

/-- Settles O39: the routine's effect, and the registers and the run states such an effect can leave. -/
theorem trapDispatch : Obligations.TrapDispatch := by
  refine ⟨fun s => ⟨rfl, rfl, rfl, rfl, rfl, rfl⟩, fun w s h => ?_⟩
  have hdec := decode_of_vector h rfl
  refine ⟨by rw [hdec, exec_trap_eq_decodeTrap], ?_⟩
  have hrti : decode w ≠ .rti := by simp [decode_eq_rti_iff, h]
  have hres : decode w ≠ .res := by simp [decode_eq_res_iff, h]
  rw [hdec] at hrti hres ⊢
  obtain ⟨t, ht, eff⟩ := exec_effect _ s (wellFormed_decodeTrap (w.extractLsb' 0 8))
  have written : ∀ r, t.reg r ≠ s.reg r → r = 0 ∧ (w.extractLsb' 0 8 = 0x20#8 ∨ w.extractLsb' 0 8 = 0x23#8) :=
    fun r hr => mem_writtenRegs_decodeTrap ((eff.reg_eq_or_written r).resolve_left hr)
  obtain ⟨hpc, hcond, hcells⟩ := decodeTrap_effect_frame eff
  refine ⟨t, ht, fun r hr => ?_, hpc, hcond, hcells, fun h0 => (written 0 h0).2, eff.run_eq_of_aborted hrti hres⟩
  by_contra hne
  exact hr (written r hne).1

/-- Settles O38: the generic TRAP keeps an undefined vector, and does nothing on it. -/
theorem undefinedVectorIsNoOp : Obligations.UndefinedVectorIsNoOp := by
  refine ⟨fun w h hv => ?_, fun v s hv => ?_, rfl, fun s => ⟨rfl, rfl⟩⟩
  · rw [decode_of_vector h rfl, decodeTrap_of_undefined (definedVector_of_out_of_range hv)]
  · exact exec_trap_of_undefined s (definedVector_of_out_of_range hv)

/-! ### Bytes put out -/

/-- Everything but the output sink stays when bytes are put out (R49). -/
theorem putChars_frame (bs : List Byte) (s : State) :
    (putChars bs s).input = s.input ∧ RegsSame s (putChars bs s) ∧ (putChars bs s).cond = s.cond ∧
    (putChars bs s).pc = s.pc ∧ CellsSame s (putChars bs s) ∧ StatusSame s (putChars bs s) :=
  ⟨rfl, fun _ => rfl, rfl, rfl, fun _ => rfl, rfl, rfl, rfl, rfl⟩

/-- Settles O33: the one byte put out. -/
theorem outWritesLowByte : Obligations.OutWritesLowByte :=
  ⟨fun _ h hv => (decode_of_vector h hv).trans rfl, fun s => ⟨_, rfl, rfl, putChars_frame [lowByte (s.reg 0)] s⟩⟩

/-- Settles O37: the notice put out and the run state, which is terminal. -/
theorem haltEndsRun : Obligations.HaltEndsRun := by
  refine ⟨fun _ h hv => (decode_of_vector h hv).trans rfl, fun s => ⟨haltRun s, rfl, rfl, rfl, ?_⟩⟩
  obtain ⟨hin, hregs, hcond, hpc, hcells, _, hhold, hstop, hplan⟩ := putChars_frame Config.haltNotice s
  exact ⟨hin, hregs, hcond, hpc, hcells, hhold, hstop, hplan, step_of_terminal (haltRun s) nofun⟩

/-! ### A character taken -/

/-- The state after the head of the input source, with `rest` behind it, has gone into R0 and `bs` has been put out: how
GETC and IN complete (R142, R145). -/
def takeChar (bs : List Byte) (c : Byte) (rest : List Byte) (s : State) : State :=
  ((putChars bs s).setInput rest).setReg 0 (zext16 c)

/-- Everything that taking a character does. -/
theorem takeChar_spec (bs : List Byte) (c : Byte) (rest : List Byte) (s : State) :
    (takeChar bs c rest s).reg 0 = c.setWidth 16 ∧ (takeChar bs c rest s).input = rest ∧
    (takeChar bs c rest s).output = s.output ++ bs ∧ RegsSameBut 0 s (takeChar bs c rest s) ∧
    (takeChar bs c rest s).cond = s.cond ∧ (takeChar bs c rest s).pc = s.pc ∧ CellsSame s (takeChar bs c rest s) ∧
    StatusSame s (takeChar bs c rest s) :=
  ⟨State.reg_setReg_same .., rfl, rfl, fun r hr => State.reg_setReg_ne _ 0 r _ hr, rfl, rfl, fun _ => rfl, rfl, rfl,
    rfl, rfl⟩

section
variable {s : State} {c : Byte} {rest : List Byte}

theorem getcTake_of_nil (h : s.input = []) : getcTake s = s.setHold (some .getc) := by
  rw [getcTake, readChar_of_nil s h]

/-- GETC has no echo (R142). -/
theorem getcTake_of_cons (h : s.input = c :: rest) : getcTake s = takeChar [] c rest s := by
  rw [getcTake, readChar_of_cons s c rest h, takeChar, putChars_nil]

theorem inTake_of_nil (h : s.input = []) : inTake s = s.setHold (some .inChar) := by
  rw [inTake, readChar_of_nil s h]

/-- IN echoes the character it takes (R145). -/
theorem inTake_of_cons (h : s.input = c :: rest) : inTake s = takeChar [c] c rest s := by
  rw [inTake, readChar_of_cons s c rest h]
  rfl

theorem inPrompted_of_cons (h : s.input = c :: rest) :
    inPrompted s = takeChar (Config.inPrompt ++ [c]) c rest s := by
  have taken : inPrompted s = takeChar [c] c rest (putChars Config.inPrompt s) := inTake_of_cons h
  rw [taken, takeChar, takeChar, putChars_putChars]

end

/-- Settles O29: the character taken with nothing put out. -/
theorem getcTakesCharacter : Obligations.GetcTakesCharacter := by
  refine ⟨fun _ h hv => (decode_of_vector h hv).trans rfl, fun s c rest hin =>
    ⟨_, congrArg Host.Outcome.next (getcTake_of_cons hin), ?_⟩⟩
  simpa only [List.append_nil] using takeChar_spec [] c rest s

/-- Settles O30: the character taken with the prompt and the echo put out. -/
theorem inTakesCharacter : Obligations.InTakesCharacter := by
  refine ⟨fun _ h hv => (decode_of_vector h hv).trans rfl, fun s c rest hin =>
    ⟨_, congrArg Host.Outcome.next (inPrompted_of_cons hin), ?_⟩⟩
  simpa only [List.append_assoc] using takeChar_spec (Config.inPrompt ++ [c]) c rest s

/-! ### The hold of GETC and IN -/

@[simp] theorem State.setHold_setHold (s : State) (g h : Option Hold) : (s.setHold g).setHold h = s.setHold h := rfl

@[simp] theorem State.setHold_hold_self (s : State) : s.setHold s.hold = s := rfl

/-- Settles O31: with no character GETC enters the hold at once, IN after the prompt. -/
theorem emptyInputHolds : Obligations.EmptyInputHolds := by
  intro s hin
  refine ⟨⟨_, congrArg Host.Outcome.next (getcTake_of_nil hin), ?_⟩,
    ⟨_, congrArg Host.Outcome.next (inTake_of_nil (s := putChars Config.inPrompt s) hin), ?_⟩⟩
  all_goals exact ⟨rfl, rfl, rfl, fun _ => rfl, rfl, rfl, fun _ => rfl, hin, rfl, rfl⟩

/-- Everything going on with a held GETC or IN can do: stop, go on waiting, or complete with the character. -/
theorem resumeHold_wait_cases {h : Hold} (hw : h = .getc ∨ h = .inChar) (u : State) :
    (u.stopReq = true ∧ resumeHold h u = (u.setHold none).setRun .stopped) ∨
    (u.stopReq = false ∧ u.input = [] ∧ resumeHold h u = u.setHold (some h)) ∨
    (∃ c rest, u.stopReq = false ∧ u.input = c :: rest ∧
      resumeHold h u = takeChar (if h = .inChar then [c] else []) c rest (u.setHold none)) := by
  cases hs : u.stopReq with
  | true => exact .inl ⟨rfl, by obtain rfl | rfl := hw <;> simp [resumeHold, hs]⟩
  | false =>
    cases hin : u.input with
    | nil =>
      refine .inr (.inl ⟨rfl, rfl, ?_⟩)
      obtain rfl | rfl := hw
      · simpa [resumeHold, hs] using getcTake_of_nil (s := u.setHold none) hin
      · simpa [resumeHold, hs] using inTake_of_nil (s := u.setHold none) hin
    | cons c rest =>
      refine .inr (.inr ⟨c, rest, rfl, rfl, ?_⟩)
      obtain rfl | rfl := hw
      · simpa [resumeHold, hs] using getcTake_of_cons (s := u.setHold none) hin
      · simpa [resumeHold, hs] using inTake_of_cons (s := u.setHold none) hin

/-- Settles O32: each of the three ways to go on is one of the statement's cases, and the other two do not apply. -/
theorem holdIsLifted : Obligations.HoldIsLifted := by
  intro s h hr hh hw
  refine ⟨_, step_of_held s h hr hh, ?_⟩
  obtain ⟨hs, e⟩ | ⟨hs, hin, e⟩ | ⟨c, rest, hs, hin, e⟩ := resumeHold_wait_cases hw (hostTurn s) <;> rw [e]
  · refine ⟨by simp, by simp, fun a => by simp, fun r _ => by simp, fun _ => ?_, ?_, ?_⟩
    · exact ⟨rfl, rfl, fun r => by simp, by simp, rfl⟩
    all_goals simp [hs]
  · have same : (hostTurn s).setHold (some h) = hostTurn s := by rw [← hh, ← hostTurn_hold s, State.setHold_hold_self]
    rw [same]
    exact ⟨by simp, by simp, hostTurn_cell s, fun r _ => by simp, by simp [hs], fun _ _ => rfl, by simp [hin]⟩
  · obtain ⟨hreg, hinput, hout, hregs, hcond, hpc, hcells, hrun, hhold, _⟩ :=
      takeChar_spec (if h = .inChar then [c] else []) c rest ((hostTurn s).setHold none)
    refine ⟨by simpa using hpc, by simpa using hcond, fun a => (hcells a).trans (hostTurn_cell s a),
      fun r hr => (hregs r hr).trans (hostTurn_reg s r), by simp [hs], by simp [hin], fun c' rest' _ hin' => ?_⟩
    obtain ⟨rfl, rfl⟩ := List.cons.inj (hin.symm.trans hin')
    exact ⟨by simpa [hr] using hrun, hhold, hreg, hinput, by simpa using hout⟩

end Sys2Proof.Machine
end

section
/-! PROOFS. The trap family's statements on ScanRead and the scans of PUTS and PUTSP (43_trap.md R144, R146, R148):
where memory has a zero word a scan puts the string out, and where it has none the machine is held inside it. -/

namespace Sys2Proof.Machine

/-- Settles O21: either value of the parameter selects its read, and they agree where `MemRead` does not poll. -/
theorem scanReadBothWays : Obligations.ScanReadBothWays := fun a s =>
  ⟨scanRead_raw a s, scanRead_intercepted a s, fun h => memRead_of_ne a s h, rfl⟩

/-! ### What a scan puts out -/

/-- PUTS puts out one byte for each word (R144). -/
theorem scanOutput_puts (ws : List Word) : scanOutput .puts ws = ws.map lowByte :=
  (List.map_eq_flatMap ..).symm

theorem scanBytes_ne_nil (kind : ScanKind) (w : Word) : scanBytes kind w ≠ [] := by
  cases kind with
  | puts => simp [scanBytes]
  | putsp => simp only [scanBytes]; split <;> simp

/-- A round of memory puts out at least one byte. -/
theorem scanOutput_cellsFrom_ne_nil (kind : ScanKind) (s : State) (a : Word) {n : Nat} (hn : 0 < n) :
    scanOutput kind (cellsFrom s a n) ≠ [] := by
  obtain ⟨n, rfl⟩ := Nat.exists_eq_add_one.mpr hn
  rw [cellsFrom_succ, scanOutput, List.flatMap_cons]
  exact List.append_ne_nil_of_left_ne_nil (scanBytes_ne_nil kind _) _

/-! ### PUTS and PUTSP from a string -/

theorem putString_of_stringAt (kind : ScanKind) {s : State} {n : Nat} (h : StringAt s (s.reg 0) n) :
    putString kind s = putChars (scanOutput kind (cellsFrom s (s.reg 0) n)) s :=
  scanFrom_string kind (s.reg 0) n s h

/-- Settles O34: the low bytes of the string put out. -/
theorem putsWritesString : Obligations.PutsWritesString := by
  refine ⟨fun _ h hv => (decode_of_vector h hv).trans rfl, fun s n hstr =>
    ⟨_, congrArg Host.Outcome.next (putString_of_stringAt .puts hstr), ?_, putChars_frame ..⟩⟩
  rw [State.output_putChars, scanOutput_puts]
  rfl

/-- Settles O35: the bytes of the string put out, two for a word whose high byte is not zero. -/
theorem putspWritesPackedString : Obligations.PutspWritesPackedString :=
  ⟨fun _ h hv => (decode_of_vector h hv).trans rfl, fun _ _ hstr =>
    ⟨_, congrArg Host.Outcome.next (putString_of_stringAt .putsp hstr), rfl, putChars_frame ..⟩⟩

/-! ### With a zero word somewhere, and with none -/

section
variable (kind : ScanKind) (s : State)

/-- With a zero word somewhere PUTS and PUTSP complete, and only the output sink changes. -/
theorem putString_frame_of_zero (h : ∃ a, s.cell a = 0) :
    RegsSame s (putString kind s) ∧ CellsSame s (putString kind s) ∧ (putString kind s).pc = s.pc ∧
    (putString kind s).cond = s.cond ∧ (putString kind s).input = s.input ∧ StatusSame s (putString kind s) := by
  obtain ⟨b, hb⟩ := h
  obtain ⟨n, hstr⟩ := stringAt_of_zero s (s.reg 0) b hb
  rw [putString_of_stringAt kind hstr]
  exact ⟨fun _ => rfl, fun _ => rfl, rfl, rfl, rfl, rfl, rfl, rfl, rfl⟩

/-- With no zero word PUTS and PUTSP leave the machine held in the scan, with bytes put out and all else unchanged. -/
theorem putString_held_of_nonzero (h : ∀ a, s.cell a ≠ 0) :
    (putString kind s).hold = some (.scan kind (s.reg 0)) ∧ (putString kind s).run = s.run ∧
    RegsSame s (putString kind s) ∧ CellsSame s (putString kind s) ∧ (putString kind s).pc = s.pc ∧
    (putString kind s).cond = s.cond ∧ (putString kind s).input = s.input ∧
    (putString kind s).stopReq = s.stopReq ∧ (putString kind s).hostPlan = s.hostPlan ∧
    ∃ bs, bs ≠ [] ∧ (putString kind s).output = s.output ++ bs := by
  rw [putString_eq, scanFrom_nonzero kind (s.reg 0) s h]
  exact ⟨rfl, rfl, fun _ => rfl, fun _ => rfl, rfl, rfl, rfl, rfl, rfl, _,
    scanOutput_cellsFrom_ne_nil kind s (s.reg 0) (Nat.succ_pos 65535), rfl⟩

end

/-! ### Going on with a held scan -/

section
variable (kind : ScanKind) (a : Word) (s : State)

theorem resumeHold_scan : resumeHold (.scan kind a) s = scanFrom false kind a (s.setHold none) := rfl

/-- What going on with a held scan leaves unchanged, whatever memory holds; the stop is not sampled inside it (R173). -/
theorem resumeHold_scan_frame :
    (resumeHold (.scan kind a) s).run = s.run ∧ RegsSame s (resumeHold (.scan kind a) s) ∧
    CellsSame s (resumeHold (.scan kind a) s) ∧ (resumeHold (.scan kind a) s).pc = s.pc ∧
    (resumeHold (.scan kind a) s).cond = s.cond ∧ (resumeHold (.scan kind a) s).input = s.input ∧
    (resumeHold (.scan kind a) s).stopReq = s.stopReq ∧ (resumeHold (.scan kind a) s).hostPlan = s.hostPlan := by
  rw [resumeHold_scan]
  obtain ⟨bs, e | e⟩ := scanFrom_raw_cases kind a (s.setHold none) <;> rw [e] <;>
    exact ⟨rfl, fun _ => rfl, fun _ => rfl, rfl, rfl, rfl, rfl, rfl⟩

/-- With no zero word a held scan puts bytes out and is held where it was. -/
theorem resumeHold_scan_of_nonzero (h : ∀ b, s.cell b ≠ 0) :
    (resumeHold (.scan kind a) s).hold = some (.scan kind a) ∧
    ∃ bs, bs ≠ [] ∧ (resumeHold (.scan kind a) s).output = s.output ++ bs := by
  rw [resumeHold_scan, scanFrom_nonzero kind a (s.setHold none) h]
  exact ⟨rfl, _, scanOutput_cellsFrom_ne_nil kind _ a (Nat.succ_pos 65535), rfl⟩

/-- From a string a held scan is done, with the string put out. -/
theorem resumeHold_scan_of_stringAt {n : Nat} (h : StringAt s a n) :
    (resumeHold (.scan kind a) s).hold = none ∧
    (resumeHold (.scan kind a) s).output = s.output ++ (cellsFrom s a n).flatMap (scanBytes kind) := by
  rw [resumeHold_scan, scanFrom_string kind a n (s.setHold none) h]
  exact ⟨rfl, rfl⟩

end

theorem cellsFrom_hostTurn (s : State) (a : Word) (n : Nat) : cellsFrom (hostTurn s) a n = cellsFrom s a n := by
  simp [cellsFrom]

/-- Settles O36: PUTS and PUTSP and a held scan, each with a zero word in memory and with none. -/
theorem scanWithoutZeroNeverEnds : Obligations.ScanWithoutZeroNeverEnds := by
  refine ⟨fun s hz => ⟨?_, ⟨_, rfl, putString_frame_of_zero .puts s hz⟩, ⟨_, rfl, putString_frame_of_zero .putsp s hz⟩⟩,
    fun s hne => ⟨⟨_, rfl, putString_held_of_nonzero .puts s hne⟩, ⟨_, rfl, putString_held_of_nonzero .putsp s hne⟩⟩,
    fun s kind a hr hh => ⟨_, step_of_held s _ hr hh, ?_⟩⟩
  · obtain ⟨b, hb⟩ := hz
    exact stringAt_of_zero s (s.reg 0) b hb
  · obtain ⟨hrun, hregs, hcells, hpc, hcond, hin, hstop, hplan⟩ := resumeHold_scan_frame kind a (hostTurn s)
    refine ⟨by simpa [hr] using hrun, fun r => (hregs r).trans (hostTurn_reg s r),
      fun b => (hcells b).trans (hostTurn_cell s b), by simpa using hpc, by simpa using hcond, hin, hstop, hplan,
      fun hne => ?_, fun hz => ?_⟩
    · simpa using resumeHold_scan_of_nonzero kind a (hostTurn s) (by simpa using hne)
    · obtain ⟨b, hb⟩ := hz
      obtain ⟨n, hstr⟩ := stringAt_of_zero s a b hb
      obtain ⟨hhold, hout⟩ := resumeHold_scan_of_stringAt kind a (hostTurn s) (n := n) (by simpa [StringAt] using hstr)
      exact ⟨hhold, n, hstr, by simpa [cellsFrom_hostTurn] using hout⟩

end Sys2Proof.Machine
end

section
/-! PROOFS. The reserved family's statement: RTI and RES take the fatal abort (44_reserved.md R160 to R162). -/

namespace Sys2Proof.Machine

theorem exec_rti (s : State) : exec .rti s = .next (s.setRun .aborted) := rfl

theorem exec_res (s : State) : exec .res s = .next (s.setRun .aborted) := rfl

theorem exec_of_reserved {i : Instr} (h : i = .rti ∨ i = .res) (s : State) :
    exec i s = .next (s.setRun .aborted) := by
  rcases h with rfl | rfl
  · exact exec_rti s
  · exact exec_res s

/-- Settles O40: every word of the two opcodes decodes to its row, and both rows only set the run state. -/
theorem reservedOpcodesAbort : Obligations.ReservedOpcodesAbort := by
  refine ⟨fun _ => decode_rti, fun _ => decode_res, fun i s h => ⟨_, exec_of_reserved h s, State.run_setRun s _, ?_⟩⟩
  exact ⟨State.reg_setRun s _, rfl, rfl, State.cell_setRun s _, ⟨rfl, rfl⟩, rfl, rfl, rfl⟩

end Sys2Proof.Machine
end

section
/-! PROOFS. The fatal abort at step level (60_exceptions.md R170, R176): the fetch's own effect, then the run state. -/

namespace Sys2Proof.Machine

/-- A step that fetches a reserved opcode is the intercepted fetch, the PC's advance and the abort, nothing else. -/
theorem step_of_reserved (s : State) (hf : s.Fetches) (h : fetchedInstr s = .rti ∨ fetchedInstr s = .res) :
    step s = .next (((memRead s.pc (hostTurn s)).2.setPc (s.pc + 1)).setRun .aborted) := by
  rw [step_of_fetches s hf, exec_of_reserved h, fetch_eq, hostTurn_pc]

/-- An aborted machine takes no further step (R27, R176). -/
theorem step_of_aborted (s : State) : step (s.setRun .aborted) = .fault (.noStep .aborted) :=
  step_of_terminal _ nofun

/-- Settles O41: the step is the abort after the fetch, whose frame is the read's and the host turn's. -/
theorem abortIsPrecise : Obligations.AbortIsPrecise := by
  intro s hf h
  have hregs : RegsSame s (memRead s.pc (hostTurn s)).2 := fun r => by simp
  have hcond : (memRead s.pc (hostTurn s)).2.cond = s.cond := by simp
  have hout : (memRead s.pc (hostTurn s)).2.output = s.output := by simp
  exact ⟨_, step_of_reserved s hf h, rfl, rfl, hregs, hcond, hout, fun _ => rfl, rfl, step_of_aborted _⟩

end Sys2Proof.Machine
end

section
/-! PROOFS. The host's load of memory (70_reset_and_hazards.md R197): where the words of an image are stored, which
cells they leave alone, and the same for an image and for a list of them. -/

namespace Sys2Proof.Machine

/-! ### Words at consecutive addresses -/

/-- The address `k` words after the next one. -/
theorem add_one_add_ofNat (a : Word) (k : Nat) : a + 1 + BitVec.ofNat 16 k = a + BitVec.ofNat 16 (k + 1) := by
  rw [BitVec.ofNat_add]
  ac_rfl

/-- Fewer than 65536 words further on is another address. -/
theorem add_ofNat_succ_ne_self (a : Word) {k : Nat} (hk : k + 1 < 65536) : a + BitVec.ofNat 16 (k + 1) ≠ a := by
  bv_omega

theorem read_storeWords_of_ne {ws : List Word} {a b : Word} (m : Memory)
    (h : ∀ k, k < ws.length → a + BitVec.ofNat 16 k ≠ b) :
    Memory.read (storeWords ws a m) b = Memory.read m b := by
  induction ws generalizing a m with
  | nil => rfl
  | cons w ws ih =>
    have hb : b ≠ a := by simpa using (h 0 (Nat.zero_lt_succ _)).symm
    have hrest : ∀ k, k < ws.length → a + 1 + BitVec.ofNat 16 k ≠ b := fun k hk => by
      rw [add_one_add_ofNat]
      exact h (k + 1) (Nat.succ_lt_succ hk)
    rw [storeWords, ih _ hrest, Memory.read_write, if_neg hb]

/-- Up to 65536 words do not run into each other, so each is where it was stored. -/
theorem read_storeWords {ws : List Word} (a : Word) (m : Memory) (hlen : ws.length ≤ 65536) {k : Nat}
    (hk : k < ws.length) : Memory.read (storeWords ws a m) (a + BitVec.ofNat 16 k) = ws[k] := by
  induction ws generalizing a m k with
  | nil => exact absurd hk (Nat.not_lt_zero k)
  | cons w ws ih =>
    rw [List.length_cons] at hlen hk
    cases k with
    | zero =>
      have later : ∀ j, j < ws.length → a + 1 + BitVec.ofNat 16 j ≠ a := fun j hj => by
        rw [add_one_add_ofNat]
        exact add_ofNat_succ_ne_self a (by omega)
      have first : Memory.read (storeWords ws (a + 1) (Memory.write m a w)) a = w := by
        rw [read_storeWords_of_ne _ later, Memory.read_write, if_pos rfl]
      simpa [storeWords] using first
    | succ k =>
      rw [← add_one_add_ofNat]
      exact ih (a + 1) _ (by omega) (by omega)

theorem storeWords_wf (ws : List Word) (a : Word) (m : Memory) (h : Memory.wf m = true) :
    Memory.wf (storeWords ws a m) = true := by
  induction ws generalizing a m with
  | nil => exact h
  | cons w ws ih => exact ih (a + 1) _ (Memory.wf_write m a w h)

/-! ### One image -/

theorem read_loadImage {i : Image} (m : Memory) {k : Nat} (hk : k < i.words.length)
    (hfit : i.origin.toNat + k < 65536) :
    Memory.read (loadImage m i) (i.origin + BitVec.ofNat 16 k) = i.words[k] := by
  have hlen : (i.words.take (65536 - i.origin.toNat)).length ≤ 65536 :=
    (List.length_take_le _ _).trans (Nat.sub_le _ _)
  have htake : k < (i.words.take (65536 - i.origin.toNat)).length := by
    rw [List.length_take]
    omega
  rw [loadImage, read_storeWords i.origin m hlen htake, List.getElem_take]

/-- The cap keeps the load from wrapping, so it stores to covered cells alone. -/
theorem read_loadImage_of_not_covers {i : Image} {a : Word} (m : Memory) (h : ¬ i.Covers a) :
    Memory.read (loadImage m i) a = Memory.read m a := by
  refine read_storeWords_of_ne m ?_
  rintro k hk rfl
  rw [List.length_take] at hk
  refine h ⟨k, by omega, ?_⟩
  rw [BitVec.toNat_add, BitVec.toNat_ofNat]
  omega

theorem loadImage_wf (i : Image) (m : Memory) (h : Memory.wf m = true) : Memory.wf (loadImage m i) = true :=
  storeWords_wf _ _ m h

/-! ### The load of a list of images -/

@[simp] theorem State.cell_setMem (s : State) (m : Memory) (a : Word) : (s.setMem m).cell a = Memory.read m a := rfl

@[simp] theorem hostLoad_nil (s : State) : hostLoad [] s = s := rfl

/-- The last image is loaded into what the images before it left. -/
theorem hostLoad_concat (images : List Image) (img : Image) (s : State) :
    hostLoad (images ++ [img]) s = (hostLoad images s).setMem (loadImage (hostLoad images s).mem img) := by
  rw [hostLoad, List.foldl_concat]
  rfl

theorem hostLoad_concat_cell_of_not_covers (images : List Image) {img : Image} (s : State) {a : Word}
    (h : ¬ img.Covers a) : (hostLoad (images ++ [img]) s).cell a = (hostLoad images s).cell a := by
  rw [hostLoad_concat, State.cell_setMem, read_loadImage_of_not_covers _ h]
  rfl

theorem hostLoad_cell_of_not_covered {images : List Image} (s : State) {a : Word}
    (h : ∀ img ∈ images, ¬ img.Covers a) : (hostLoad images s).cell a = s.cell a := by
  induction images using List.reverseRecOn with
  | nil => rfl
  | append_singleton images img ih =>
    rw [hostLoad_concat_cell_of_not_covers images s (h img (by simp))]
    exact ih fun i hi => h i (List.mem_append_left _ hi)

/-- The load keeps the invariant: every image's words are stored by `Memory.write`, and nothing but memory changes. -/
theorem hostLoad_inv (images : List Image) (s : State) (h : s.Inv) : (hostLoad images s).Inv := by
  induction images using List.reverseRecOn with
  | nil => exact h
  | append_singleton images img ih =>
    obtain ⟨hmem, hhold⟩ := ih
    rw [hostLoad_concat]
    exact ⟨loadImage_wf img _ hmem, hhold⟩

end Sys2Proof.Machine
end

section
/-! PROOFS. The reset family's statements (70_reset_and_hazards.md R190 to R203): the state at reset, the host's load
into it, and the step at an unloaded cell. -/

namespace Sys2Proof.Machine

/-! ### Reset and load -/

section
variable (gpr : Vector Word 8) (cond : Cond) (input : List Byte)

@[simp] theorem resetWith_cell (a : Word) : (State.resetWith gpr cond input).cell a = 0x0000#16 := Memory.read_nil a

theorem resetWith_inv : (State.resetWith gpr cond input).Inv := ⟨rfl, fun _ => rfl⟩

/-- With an empty plan the host's first turn does nothing, so the first step fetches (R199). -/
theorem resetWith_fetches : (State.resetWith gpr cond input).Fetches := by
  refine ⟨rfl, rfl, ?_⟩
  rw [hostTurn_of_nil _ rfl]
  rfl

end

/-- Settles O58: the last image by where its words are stored, the rest by the cells no image covers. -/
theorem hostLoadsImages : Obligations.HostLoadsImages := by
  refine ⟨fun images img s => ⟨fun k hk hfit => ?_, fun a h => hostLoad_concat_cell_of_not_covers images s h⟩,
    fun images gpr cond input a h => ?_⟩
  · rw [hostLoad_concat, State.cell_setMem, read_loadImage _ hk hfit]
  · rw [hostLoad_cell_of_not_covered _ h, resetWith_cell]

/-- Settles O56: reset has the invariant, and the load keeps it. -/
theorem invariantAfterReset : Obligations.InvariantAfterReset :=
  ⟨resetWith_inv _ _ _, fun gpr cond input images => hostLoad_inv images _ (resetWith_inv gpr cond input)⟩

/-- Settles O57: each field as reset writes it, memory by the empty list, the first step by the empty plan. -/
theorem resetState : Obligations.ResetState := fun gpr cond input =>
  ⟨rfl, fun _ => rfl, rfl, resetWith_cell gpr cond input, rfl, rfl, rfl, rfl, fun _ => rfl, rfl, rfl,
    resetWith_fetches gpr cond input⟩

/-! ### The step at an unloaded cell -/

/-- Away from KBSR the fetch changes the PC alone. -/
theorem fetch_of_pc_ne_kbsr (s : State) (h : s.pc ≠ Config.kbsr) : fetch s = (s.cell s.pc, s.setPc (s.pc + 1)) := by
  rw [fetch_eq, memRead_of_ne _ _ h]

/-- The word 0x0000 is a no-op encoding, so only the PC's advance is left of the step (R85, R203). -/
theorem step_at_unloaded (s : State) (hf : s.Fetches) (hpc : s.pc ≠ Config.kbsr) (hcell : s.cell s.pc = 0) :
    step s = .next ((hostTurn s).setPc (s.pc + 1)) := by
  have ⟨noOp, _⟩ := noOpEncodings
  have hturn : (hostTurn s).pc ≠ Config.kbsr := by rwa [hostTurn_pc]
  rw [step_of_fetches s hf, fetchedInstr_of_pc_ne_kbsr s hpc, hcell, noOp 0 _ (by decide), fetch_of_pc_ne_kbsr _ hturn,
    hostTurn_pc]

/-- Settles O44: the step is the host's turn and the PC's advance, which is modulo 65536. -/
theorem unloadedMemorySlides : Obligations.UnloadedMemorySlides := fun s hf hpc hcell =>
  ⟨_, step_at_unloaded s hf hpc hcell, BitVec.toNat_add s.pc 1, rfl⟩

end Sys2Proof.Machine
end
